-- ==== Sys2Proof/Word.lean ====
section
/-! DEFINITION. The word types of SCCA-CPU (00_scope.md R7, R9). -/

namespace Sys2Proof

/-- A register, a memory cell, an opcode or an operand byte: 8 bits (R7 `XLEN`, `CELL`). -/
abbrev Byte := BitVec 8

/-- The program counter and a presented memory address: 9 bits (R7 `PCW`, R28). -/
abbrev Addr := BitVec 9

/-- The flag latch: 3 bits (R7 `FLW`, R22). -/
abbrev Flags := BitVec 3

/-- A checked register index, 0 to 7 (R7 `NREG`, R13). -/
abbrev Reg := Fin 8

/-- `trunc8(v) = v mod 256` (R9, R16). -/
def trunc8 (v : Nat) : Byte := BitVec.ofNat 8 v

/-- The operand byte that names register `r` (R54: the legal values are 0 to 7). -/
def regByte (r : Reg) : Byte := BitVec.ofNat 8 r.val

end Sys2Proof
end

