-- ==== Sys2Proof/Syntax.lean ====
section
/-! DEFINITION. The twenty instructions of SCCA-CPU (00_scope.md R4) with their operand bytes (30_encoding.md R54, R56). -/

namespace Sys2Proof

/-- The names of the instructions, in the order of R4. -/
inductive Mnemonic where
  | hlt | ldi | prn | push | pop | call | ret | cmp | jmp | jeq | jne
  | and | or | xor | shl | shr | mod | add | mul | not
  deriving DecidableEq, Repr

/-- An instruction with its operand bytes as they stand in memory (R54).
`o1`, `o2` of operand kind `reg` are bytes whose legal values are 0 to 7: `Instr.wellFormed` says when they are,
and each meaning makes the check `reg(o)` itself, as the rules' pseudocode does (R61). -/
inductive Instr where
  | hlt
  | ldi (o1 imm : Byte)
  | prn (o1 : Byte)
  | push (o1 : Byte)
  | pop (o1 : Byte)
  | call (o1 : Byte)
  | ret
  | cmp (o1 o2 : Byte)
  | jmp (addr : Byte)
  | jeq (o1 : Byte)
  | jne (o1 : Byte)
  | and (o1 o2 : Byte)
  | or (o1 o2 : Byte)
  | xor (o1 o2 : Byte)
  | shl (o1 o2 : Byte)
  | shr (o1 o2 : Byte)
  | mod (o1 o2 : Byte)
  | add (o1 o2 : Byte)
  | mul (o1 o2 : Byte)
  | not (o1 : Byte)
  deriving DecidableEq, Repr

/-- Every mnemonic once, in the order of R4. -/
def Mnemonic.all : List Mnemonic :=
  [.hlt, .ldi, .prn, .push, .pop, .call, .ret, .cmp, .jmp, .jeq, .jne,
   .and, .or, .xor, .shl, .shr, .mod, .add, .mul, .not]

/-- The mnemonic of an instruction. -/
def Instr.mnemonic : Instr → Mnemonic
  | .hlt => .hlt
  | .ldi _ _ => .ldi
  | .prn _ => .prn
  | .push _ => .push
  | .pop _ => .pop
  | .call _ => .call
  | .ret => .ret
  | .cmp _ _ => .cmp
  | .jmp _ => .jmp
  | .jeq _ => .jeq
  | .jne _ => .jne
  | .and _ _ => .and
  | .or _ _ => .or
  | .xor _ _ => .xor
  | .shl _ _ => .shl
  | .shr _ _ => .shr
  | .mod _ _ => .mod
  | .add _ _ => .add
  | .mul _ _ => .mul
  | .not _ => .not

end Sys2Proof
end

