-- ==== Sys2Proof/Config.lean ====
section
/-! DEFINITION. The two OPEN parameters of the hardware (00_scope.md R7, R8): `OPCODE_MAP` and `CALL_SP_INDEX`.
Their default values stand in Sys2Proof/Decode.lean. No other point of the spec is left open, and no rule draws a value
(70_reset_and_hazards.md R146), so there is no free value here. -/

namespace Sys2Proof

/-- `OPCODE_MAP` (R8): one opcode byte for each mnemonic. Which maps are legal: `OpcodeMap.legal`. -/
structure OpcodeMap where
  hlt : Byte
  ldi : Byte
  prn : Byte
  push : Byte
  pop : Byte
  call : Byte
  ret : Byte
  cmp : Byte
  jmp : Byte
  jeq : Byte
  jne : Byte
  and : Byte
  or : Byte
  xor : Byte
  shl : Byte
  shr : Byte
  mod : Byte
  add : Byte
  mul : Byte
  not : Byte
  deriving DecidableEq, Repr

/-- `CALL_SP_INDEX` (43_control_transfer.md R87): the two legal values. -/
inductive CallSp where
  /-- 7: CALL, RET, PUSH and POP all use register 7. -/
  | seven
  /-- 6: CALL uses register 6, the others register 7. -/
  | six
  deriving DecidableEq, Repr

/-- The configuration of one machine, fixed while it runs. -/
structure Config where
  opcodes : OpcodeMap
  callSp : CallSp
  deriving DecidableEq, Repr

/-- The opcode byte the map gives a mnemonic. -/
def OpcodeMap.opcodeOf (m : OpcodeMap) : Mnemonic → Byte
  | .hlt => m.hlt
  | .ldi => m.ldi
  | .prn => m.prn
  | .push => m.push
  | .pop => m.pop
  | .call => m.call
  | .ret => m.ret
  | .cmp => m.cmp
  | .jmp => m.jmp
  | .jeq => m.jeq
  | .jne => m.jne
  | .and => m.and
  | .or => m.or
  | .xor => m.xor
  | .shl => m.shl
  | .shr => m.shr
  | .mod => m.mod
  | .add => m.add
  | .mul => m.mul
  | .not => m.not

/-- The register `CALL_SP_INDEX` names (R87). -/
def CallSp.index : CallSp → Reg
  | .seven => 7
  | .six => 6

end Sys2Proof
end

