-- ==== Sys2Proof/WellFormed.lean ====
section
/-! DEFINITION. What makes an instruction and a configuration legal: register operand bytes are 0 to 7
(30_encoding.md R61, R66), and `OPCODE_MAP` is injective without `0xFF` (00_scope.md R8). -/

namespace Sys2Proof

/-- The operand bytes of kind `reg`, first operand first (30_encoding.md R56). -/
def Instr.regOperands : Instr → List Byte
  | .hlt | .ret | .jmp _ => []
  | .ldi o1 _ => [o1]
  | .prn o1 | .push o1 | .pop o1 | .call o1 | .jeq o1 | .jne o1 | .not o1 => [o1]
  | .cmp o1 o2 | .and o1 o2 | .or o1 o2 | .xor o1 o2 | .shl o1 o2 | .shr o1 o2 | .mod o1 o2 | .add o1 o2
  | .mul o1 o2 => [o1, o2]

/-- An operand byte of kind `reg` is legal when its value is 0 to 7 (R61). -/
def legalReg (o : Byte) : Bool := decide (o.toNat ≤ 7)

/-- Every register operand byte of the instruction is legal. An immediate and an address are always legal (R66). -/
def Instr.wellFormed (i : Instr) : Bool := i.regOperands.all legalReg

/-- The map gives twenty distinct bytes (R8). -/
def OpcodeMap.injective (m : OpcodeMap) : Bool := decide (Mnemonic.all.map m.opcodeOf).Nodup

/-- `0xFF` is not in the map (R8). -/
def OpcodeMap.avoidsFF (m : OpcodeMap) : Bool := Mnemonic.all.all fun k => m.opcodeOf k != 0xFF#8

/-- A legal `OPCODE_MAP` (R8). -/
def OpcodeMap.legal (m : OpcodeMap) : Bool := m.injective && m.avoidsFF

end Sys2Proof
end

