-- ==== Sys2Proof/Decode.lean ====
section
/-! DEFINITION. The decoder and the encoder (30_encoding.md R53 to R67), with the default values of the two
parameters (R57, 43_control_transfer.md R87). -/

namespace Sys2Proof

/-- The default `OPCODE_MAP` (R57). UNVERIFIED: the spec takes the bytes from general knowledge (D1; log entry 2). -/
def defaultOpcodes : OpcodeMap where
  hlt := 0x01
  ldi := 0x82
  prn := 0x47
  push := 0x45
  pop := 0x46
  call := 0x50
  ret := 0x11
  cmp := 0xA7
  jmp := 0x54
  jeq := 0x55
  jne := 0x56
  and := 0xA8
  or := 0xAA
  xor := 0xAB
  shl := 0xAC
  shr := 0xAD
  mod := 0xA4
  add := 0xA0
  mul := 0xA2
  not := 0x69

/-- The default configuration: the default map, and `CALL_SP_INDEX = 7` (R87, D2; log entry 3). -/
def defaultConfig : Config where
  opcodes := defaultOpcodes
  callSp := .seven

/-- The opcode lookup, keyed by the whole byte (R55); `none` is an illegal opcode (R64).
For a map that is not injective the first mnemonic in the order of R4 is taken (log entry 13). -/
def OpcodeMap.lookup (m : OpcodeMap) (op : Byte) : Option Mnemonic :=
  Mnemonic.all.find? fun k => m.opcodeOf k == op

/-- A format with the instruction it builds from its operand bytes (R54): the formats F0, F1 and F2. -/
inductive Form where
  | f0 (i : Instr)
  | f1 (mk : Byte → Instr)
  | f2 (mk : Byte → Byte → Instr)

/-- The format of each mnemonic (R54, R56). -/
def Mnemonic.form : Mnemonic → Form
  | .hlt => .f0 .hlt
  | .ldi => .f2 .ldi
  | .prn => .f1 .prn
  | .push => .f1 .push
  | .pop => .f1 .pop
  | .call => .f1 .call
  | .ret => .f0 .ret
  | .cmp => .f2 .cmp
  | .jmp => .f1 .jmp
  | .jeq => .f1 .jeq
  | .jne => .f1 .jne
  | .and => .f2 .and
  | .or => .f2 .or
  | .xor => .f2 .xor
  | .shl => .f2 .shl
  | .shr => .f2 .shr
  | .mod => .f2 .mod
  | .add => .f2 .add
  | .mul => .f2 .mul
  | .not => .f1 .not

/-- Why no instruction can be read. -/
inductive Reject where
  /-- The byte at offset `k` from the opcode does not exist (R63). -/
  | missingByte (k : Nat)
  /-- The opcode byte is not in the map (R64). -/
  | illegalOpcode (op : Byte)
  deriving DecidableEq, Repr

/-- Reading one instruction through `rd`, which answers the byte at an offset from the opcode. The bytes are read in
the order of R62 and only as far as the format needs (R59, R60). -/
def decodeFrom (m : OpcodeMap) (rd : Nat → Option Byte) : Except Reject Instr :=
  match rd 0 with
  | none => .error (.missingByte 0)
  | some op =>
    match m.lookup op with
    | none => .error (.illegalOpcode op)
    | some k =>
      match k.form with
      | .f0 i => .ok i
      | .f1 mk =>
        match rd 1 with
        | none => .error (.missingByte 1)
        | some o1 => .ok (mk o1)
      | .f2 mk =>
        match rd 1 with
        | none => .error (.missingByte 1)
        | some o1 =>
          match rd 2 with
          | none => .error (.missingByte 2)
          | some o2 => .ok (mk o1 o2)

/-- Decoding the bytes of a list, the opcode first (R42). Total: an instruction, or a rejection by name (R67).
The register check of R61 is the meaning's first act (log entry 5). -/
def decode (m : OpcodeMap) (bytes : List Byte) : Except Reject Instr := decodeFrom m fun k => bytes[k]?

/-- The length of an instruction in bytes (R53, R56). -/
def Instr.length : Instr → Nat
  | .hlt | .ret => 1
  | .prn _ | .push _ | .pop _ | .call _ | .jmp _ | .jeq _ | .jne _ | .not _ => 2
  | .ldi _ _ | .cmp _ _ | .and _ _ | .or _ _ | .xor _ _ | .shl _ _ | .shr _ _ | .mod _ _ | .add _ _ | .mul _ _ => 3

/-- The operand bytes in memory order (R54). -/
def Instr.operandBytes : Instr → List Byte
  | .hlt | .ret => []
  | .prn o1 | .push o1 | .pop o1 | .call o1 | .jmp o1 | .jeq o1 | .jne o1 | .not o1 => [o1]
  | .ldi o1 o2 | .cmp o1 o2 | .and o1 o2 | .or o1 o2 | .xor o1 o2 | .shl o1 o2 | .shr o1 o2 | .mod o1 o2
  | .add o1 o2 | .mul o1 o2 => [o1, o2]

/-- The bytes of an instruction, the opcode at the lowest address (R42, R54, R69). -/
def encode (m : OpcodeMap) (i : Instr) : List Byte := m.opcodeOf i.mnemonic :: i.operandBytes

/-- Byte `k` of a word whose bit 0 is the least significant bit of the first byte; bits from `nbits` up are zero. -/
def tableByte (nbits w k : Nat) : Byte := BitVec.ofNat 8 (w % 2 ^ nbits / 256 ^ k)

/-- The bytes of the word `w`, as many as the longest instruction has (R53). -/
def tableBytes (nbits w : Nat) : List Byte := [tableByte nbits w 0, tableByte nbits w 1, tableByte nbits w 2]

/-- What the decoder reads from a word numbered as spec/opcode_table.json numbers it, under the default map.
A word whose register operand is not 0 to 7 is refused here: on the machine it raises RegisterError (R61). -/
def decodeTableWord (nbits w : Nat) : Option Instr :=
  match decode defaultOpcodes (tableBytes nbits w) with
  | .ok i => if i.wellFormed then some i else none
  | .error _ => none

end Sys2Proof
end

