-- ==== Sys2Proof/Machine/State.lean ====
section
/-! DEFINITION. The state of SCCA-CPU (10_state.md R13 to R26, R34), why a step can stop, and the state after reset. -/

namespace Sys2Proof.Machine

/-- Memory (20_memory.md R36): the cells that do not hold `Memory.unlisted`, by strictly rising address. -/
abbrev Memory := List Host.Cell

/-- What an unlisted address reads as: memory is zero after reset (R34, R36). -/
def Memory.unlisted : Byte := 0#8

/-- A fatal fault with its `info` (60_exceptions.md R119): the `kind` and `info` of the FAULT record (10_state.md R25). -/
inductive FaultCause where
  /-- The opcode byte `op` is not in `OPCODE_MAP` (R114). -/
  | illegalInstruction (op : Byte)
  /-- The operand byte `o` of kind `reg` is 8 to 255 (R115). -/
  | registerError (o : Byte)
  /-- A memory access at `addr`, outside 0 to 255 (R116). -/
  | addressError (addr : Addr)
  /-- The ALU is given an operation outside its ten (R117). Nothing raises it (R106; log entry 9). -/
  | unsupportedOperation (operation : String)
  deriving DecidableEq, Repr

/-- The FAULT record `(kind, at, info)` (10_state.md R25). -/
structure FaultRecord where
  /-- `kind` and `info`. -/
  cause : FaultCause
  /-- `at`: the address of the faulting instruction's opcode. -/
  atPc : Addr
  deriving DecidableEq, Repr

/-- An event on the diagnostic stream (10_state.md R31). -/
inductive DiagEvent where
  /-- `DivideByZero(at)`: MOD at address `atPc` found a zero divisor. -/
  | divideByZero (atPc : Addr)
  deriving DecidableEq, Repr

/-- The whole state (10_state.md R26), with the configuration the machine was built with (R8; log entry 1). -/
structure State where
  /-- `x[0]` to `x[7]` (R13). -/
  x : Vector Byte 8
  /-- `pc`: the address of the current instruction's opcode (R19). -/
  pc : Addr
  /-- `FL`: bit 0 EQUAL, bit 1 GREATER, bit 2 LESS (R22). -/
  fl : Flags
  /-- `RUN` (R24). -/
  run : Bool
  /-- `FAULT` (R25). -/
  fault : Option FaultRecord
  /-- `M` (R36). -/
  mem : Memory
  /-- `OUT`, oldest byte first (R30). -/
  out : List Byte
  /-- `DIAG`, oldest event first (R31). -/
  diag : List DiagEvent
  /-- `OPCODE_MAP` and `CALL_SP_INDEX`; nothing writes it (R8). -/
  config : Config
  deriving DecidableEq, Repr

/-- Why a step answers no next state. -/
inductive Fault where
  /-- The machine was halted by HLT: `RUN = 0`, `FAULT = none` (R32). Raised by `step` alone, when asked for a step of
  a state that has none (60_exceptions.md R126). Safe: the hardware takes no step either. -/
  | halted
  /-- The machine was stopped by the fatal fault `r`: `RUN = 0`, `FAULT = r` (R32). Raised by `step` alone, as above.
  Safe: the hardware takes no step either. -/
  | faulted (r : FaultRecord)
  deriving DecidableEq, Repr

/-- Why an instruction has no meaning. -/
inductive Refusal where
  /-- An instruction not modelled yet. No arm of `exec` answers it: every instruction has its meaning. Safe. -/
  | notModelled (mnemonic : String)
  deriving DecidableEq, Repr

/-- The state after reset of a machine with configuration `c` (10_state.md R34, 70_reset_and_hazards.md R135). -/
def State.resetWith (c : Config) : State where
  x := Vector.replicate 8 0#8
  pc := 0#9
  fl := 0b000#3
  run := true
  fault := none
  mem := []
  out := []
  diag := []
  config := c

/-- The state after reset of the default machine (R34). -/
def State.reset : State := State.resetWith defaultConfig

end Sys2Proof.Machine
end

