-- ==== Sys2Proof/Machine/Ops.lean ====
section
/-! DEFINITION. The named operations over memory, registers, the program counter, the streams and the fault latch:
the primitives of 00_scope.md R10. -/

namespace Sys2Proof.Machine

/-- The byte an address holds (20_memory.md R36). -/
def Memory.read : Memory → Nat → Byte
  | [], _ => Memory.unlisted
  | c :: r, a => if c.1 = a then c.2 else Memory.read r a

/-- Memory without an entry for `a`. -/
def Memory.erase (m : Memory) (a : Nat) : Memory := m.filter fun c => c.1 != a

/-- The entry `(a, v)` put before the first entry of a higher address. -/
def Memory.insert : Memory → Nat → Byte → Memory
  | [], a, v => [(a, v)]
  | c :: r, a, v => if a < c.1 then (a, v) :: c :: r else c :: Memory.insert r a v

/-- One cell written (R39). Writing what an unlisted address reads as removes the entry, so equal memories are equal
lists. -/
def Memory.write (m : Memory) (a : Nat) (v : Byte) : Memory :=
  if v = Memory.unlisted then Memory.erase m a else Memory.insert (Memory.erase m a) a v

/-- The canonical form: strictly rising addresses, all of them in 0 to 255 (R36), no entry equal to what an unlisted
address reads as. -/
abbrev Memory.wf (m : Memory) : Prop :=
  m.Pairwise (fun c d => c.1 < d.1) ∧ ∀ c ∈ m, c.1 < 256 ∧ c.2 ≠ Memory.unlisted

/-- `x[i]` (R10, R13). -/
def State.reg (s : State) (r : Reg) : Byte := s.x[r.val]'(r.isLt)

/-- `x[i] <- v`; no register is hardwired (R14). -/
def State.setReg (s : State) (r : Reg) (v : Byte) : State := { s with x := s.x.set r.val v r.isLt }

/-- Register 7, the stack pointer of PUSH, POP and RET (R7 `SP_INDEX`). -/
def sp : Reg := 7

/-- The register CALL decrements and stores through (43_control_transfer.md R87). -/
def State.callSp (s : State) : Reg := s.config.callSp.index

/-- `MemRead(a, 1)` (20_memory.md R38): `none` stands for `raise AddressError(a)`. -/
def State.memRead (s : State) (a : Nat) : Option Byte := if a ≤ 255 then some (Memory.read s.mem a) else none

/-- `MemRead` at an address held in a byte, which cannot fault (R38, R40). -/
def State.load (s : State) (a : Byte) : Byte := Memory.read s.mem a.toNat

/-- `MemWrite` at an address held in a byte, which cannot fault (R39, R40). -/
def State.store (s : State) (a : Byte) (v : Byte) : State := { s with mem := Memory.write s.mem a.toNat v }

/-- Setting `pc`. -/
def State.setPc (s : State) (t : Addr) : State := { s with pc := t }

/-- `pc <- pc + n` (10_state.md R20). -/
def State.advance (s : State) (n : Nat) : State := s.setPc (s.pc + BitVec.ofNat 9 n)

/-- `pc <- zext_9(t)`: an absolute address (43_control_transfer.md R84). -/
def State.jump (s : State) (t : Byte) : State := s.setPc (t.setWidth 9)

/-- `FL <- v`. -/
def State.setFl (s : State) (v : Flags) : State := { s with fl := v }

/-- `Out(v)` (10_state.md R30). -/
def State.emit (s : State) (v : Byte) : State := { s with out := s.out ++ [v] }

/-- `Diag(e)` (10_state.md R31). -/
def State.report (s : State) (e : DiagEvent) : State := { s with diag := s.diag ++ [e] }

/-- `RUN <- 0`. -/
def State.stop (s : State) : State := { s with run := false }

/-- `raise F(info)`: taking a fatal fault (60_exceptions.md R113). Nothing else changes, and control goes nowhere.
There is no return from it: only reset leaves `RUN = 0` (R124). -/
def State.raise (s : State) (c : FaultCause) : State := { s with fault := some ⟨c, s.pc⟩, run := false }

/-- One byte pushed through the pointer register `r`, which moves down first (42_stack.md R80; conflict C1). -/
def State.pushThrough (s : State) (r : Reg) (v : Byte) : State :=
  let s' := s.setReg r (s.reg r - 1#8)
  s'.store (s'.reg r) v

end Sys2Proof.Machine
end

