-- ==== Sys2Proof/Machine/Flags.lean ====
section
/-! DEFINITION. The flag latch: its values (10_state.md R22), what CMP writes (44_alu.md R94) and what JEQ and JNE test
(43_control_transfer.md R89, R90). No other operation computes a flag (R23, R104). -/

namespace Sys2Proof.Machine

/-- EQUAL. -/
def flEqual : Flags := 0b001#3

/-- GREATER. -/
def flGreater : Flags := 0b010#3

/-- LESS. -/
def flLess : Flags := 0b100#3

/-- The flag value of comparing `u` with `v`, unsigned, `u` the subject (R94; D4, D5). -/
def compareFlags (u v : Byte) : Flags :=
  if u = v then flEqual else if u.toNat > v.toNat then flGreater else flLess

/-- The test of JEQ: the whole latch is EQUAL (R89). JNE tests the contrary (R90). -/
def State.isEqual (s : State) : Bool := s.fl == flEqual

end Sys2Proof.Machine
end

