-- ==== Sys2Proof/Machine/Operands.lean ====
section
/-! DEFINITION. The operand forms (30_encoding.md R60, R61): a register operand checked, two of them in order, and the
shape shared by the two-operand ALU operations (44_alu.md R92). Immediates and addresses are the bytes themselves. -/

namespace Sys2Proof.Machine

/-- `reg(o)` (R61): the register an operand byte names; `none` stands for `raise RegisterError(o)`. -/
def reg (o : Byte) : Option Reg := if h : o.toNat < 8 then some ⟨o.toNat, h⟩ else none

/-- One register operand: the rest of the instruction runs on the checked index, or RegisterError is taken. -/
def withReg (o : Byte) (s : State) (k : Reg → State) : Host.Outcome State Fault Refusal :=
  match reg o with
  | some a => .next (k a)
  | none => .next (s.raise (.registerError o))

/-- Two register operands, the first checked first (R63). -/
def withRegs (o1 o2 : Byte) (s : State) (k : Reg → Reg → State) : Host.Outcome State Fault Refusal :=
  match reg o1 with
  | some a => withReg o2 s (k a)
  | none => .next (s.raise (.registerError o1))

/-- `x[a] <- f(x[a], x[b]); pc <- pc + 3`, both operands read before the write (R92, R105). -/
def binary (f : Byte → Byte → Byte) (o1 o2 : Byte) (s : State) : Host.Outcome State Fault Refusal :=
  withRegs o1 o2 s fun a b => (s.setReg a (f (s.reg a) (s.reg b))).advance 3

end Sys2Proof.Machine
end

