-- ==== Sys2Proof/Machine/Alu.lean ====
section
/-! DEFINITION. The ten ALU operations (44_alu.md). Results are computed on unsigned numbers and truncated at the end
(R93). -/

namespace Sys2Proof.Machine

/-- `(u + v) mod 256` (R95). -/
def aluAdd (u v : Byte) : Byte := trunc8 (u.toNat + v.toNat)

/-- `(u * v) mod 256` (R96). -/
def aluMul (u v : Byte) : Byte := trunc8 (u.toNat * v.toNat)

/-- Bitwise and (R97). -/
def aluAnd (u v : Byte) : Byte := u &&& v

/-- Bitwise or (R98). -/
def aluOr (u v : Byte) : Byte := u ||| v

/-- Bitwise exclusive or (R99). -/
def aluXor (u v : Byte) : Byte := u ^^^ v

/-- `255 - u` (R100). -/
def aluNot (u : Byte) : Byte := trunc8 (255 - u.toNat)

/-- Left shift by the whole value of `n`; 8 or more gives 0 (R101, D6). -/
def aluShl (u n : Byte) : Byte := if n.toNat ≥ 8 then 0#8 else trunc8 (u.toNat * 2 ^ n.toNat)

/-- Logical right shift by the whole value of `n`; 8 or more gives 0 (R102, D6). -/
def aluShr (u n : Byte) : Byte := if n.toNat ≥ 8 then 0#8 else trunc8 (u.toNat / 2 ^ n.toNat)

/-- The remainder of unsigned division, for a divisor that is not 0 (R103). -/
def aluMod (u v : Byte) : Byte := trunc8 (u.toNat % v.toNat)

/-- CMP (R94): `FL` is overwritten whole, no register is written. -/
def execCmp (o1 o2 : Byte) (s : State) : Host.Outcome State Fault Refusal :=
  withRegs o1 o2 s fun a b => (s.setFl (compareFlags (s.reg a) (s.reg b))).advance 3

/-- ADD (R95). -/
def execAdd (o1 o2 : Byte) (s : State) : Host.Outcome State Fault Refusal := binary aluAdd o1 o2 s

/-- MUL (R96). -/
def execMul (o1 o2 : Byte) (s : State) : Host.Outcome State Fault Refusal := binary aluMul o1 o2 s

/-- AND (R97). -/
def execAnd (o1 o2 : Byte) (s : State) : Host.Outcome State Fault Refusal := binary aluAnd o1 o2 s

/-- OR (R98). -/
def execOr (o1 o2 : Byte) (s : State) : Host.Outcome State Fault Refusal := binary aluOr o1 o2 s

/-- XOR (R99). -/
def execXor (o1 o2 : Byte) (s : State) : Host.Outcome State Fault Refusal := binary aluXor o1 o2 s

/-- NOT (R100). -/
def execNot (o1 : Byte) (s : State) : Host.Outcome State Fault Refusal :=
  withReg o1 s fun a => (s.setReg a (aluNot (s.reg a))).advance 2

/-- SHL (R101). -/
def execShl (o1 o2 : Byte) (s : State) : Host.Outcome State Fault Refusal := binary aluShl o1 o2 s

/-- SHR (R102). -/
def execShr (o1 o2 : Byte) (s : State) : Host.Outcome State Fault Refusal := binary aluShr o1 o2 s

/-- MOD (R103): a zero divisor is reported and writes no register; `pc` advances either way (60_exceptions.md R118). -/
def execMod (o1 o2 : Byte) (s : State) : Host.Outcome State Fault Refusal :=
  withRegs o1 o2 s fun a b =>
    if s.reg b = 0#8 then (s.report (.divideByZero s.pc)).advance 3
    else (s.setReg a (aluMod (s.reg a) (s.reg b))).advance 3

end Sys2Proof.Machine
end

