-- ==== Sys2Proof/Machine/Control.lean ====
section
/-! DEFINITION. Control transfer (43_control_transfer.md). -/

namespace Sys2Proof.Machine

/-- The return address CALL saves: `(pc + 2) mod 256` (R85, D9). -/
def State.returnByte (s : State) : Byte := trunc8 (s.pc.toNat + 2)

/-- CALL (R85): the return address goes through `x[CALL_SP_INDEX]`; the target is read after the decrement. -/
def execCall (o1 : Byte) (s : State) : Host.Outcome State Fault Refusal :=
  withReg o1 s fun a =>
    let s' := s.pushThrough s.callSp s.returnByte
    s'.jump (s'.reg a)

/-- RET (R86): `pc` from the cell register 7 addresses (conflict C2), then register 7 moves up. -/
def execRet (s : State) : Host.Outcome State Fault Refusal :=
  .next ((s.jump (s.load (s.reg sp))).setReg sp (s.reg sp + 1#8))

/-- JMP (R88): the operand byte is the target address. -/
def execJmp (addr : Byte) (s : State) : Host.Outcome State Fault Refusal := .next (s.jump addr)

/-- JEQ (R89). The register is checked whether or not the jump is taken (R61). -/
def execJeq (o1 : Byte) (s : State) : Host.Outcome State Fault Refusal :=
  withReg o1 s fun a => if s.isEqual then s.jump (s.reg a) else s.advance 2

/-- JNE (R90). The register is checked whether or not the jump is taken (R61). -/
def execJne (o1 : Byte) (s : State) : Host.Outcome State Fault Refusal :=
  withReg o1 s fun a => if s.isEqual then s.advance 2 else s.jump (s.reg a)

end Sys2Proof.Machine
end

