-- ==== Sys2Proof/Machine/MoveIo.lean ====
section
/-! DEFINITION. Load-immediate and output (41_move_io.md). -/

namespace Sys2Proof.Machine

/-- LDI (R78): `x[a] <- o2; pc <- pc + 3`. -/
def execLdi (o1 imm : Byte) (s : State) : Host.Outcome State Fault Refusal :=
  withReg o1 s fun a => (s.setReg a imm).advance 3

/-- PRN (R79): `Out(x[a]); pc <- pc + 2`. -/
def execPrn (o1 : Byte) (s : State) : Host.Outcome State Fault Refusal :=
  withReg o1 s fun a => (s.emit (s.reg a)).advance 2

end Sys2Proof.Machine
end

