-- ==== Sys2Proof/Machine/Stack.lean ====
section
/-! DEFINITION. Stack instructions (42_stack.md). -/

namespace Sys2Proof.Machine

/-- PUSH (R81): the operand register is read before SP moves (D10), then SP moves down, then the store. -/
def execPush (o1 : Byte) (s : State) : Host.Outcome State Fault Refusal :=
  withReg o1 s fun a => (s.pushThrough sp (s.reg a)).advance 2

/-- POP (R82): the load into `x[a]`, then SP moves up from the value it has by then. -/
def execPop (o1 : Byte) (s : State) : Host.Outcome State Fault Refusal :=
  withReg o1 s fun a =>
    let s' := s.setReg a (s.load (s.reg sp))
    (s'.setReg sp (s'.reg sp + 1#8)).advance 2

end Sys2Proof.Machine
end

