-- ==== Sys2Proof/Machine/System.lean ====
section
/-! DEFINITION. System instructions (40_system.md): HLT is the only one (R76). -/

namespace Sys2Proof.Machine

/-- HLT (R75): `RUN <- 0`; `pc` stays at the HLT opcode (D11). -/
def execHlt (s : State) : Host.Outcome State Fault Refusal := .next s.stop

end Sys2Proof.Machine
end

