-- ==== Sys2Proof/Machine/Dispatch.lean ====
section
/-! DEFINITION. The dispatch table: one arm per instruction (30_encoding.md R62, last line of the step). -/

namespace Sys2Proof.Machine

def exec (i : Instr) (s : State) : Host.Outcome State Fault Refusal :=
  match i with
  | .hlt => Sys2Proof.Machine.execHlt s
  | .ldi o1 imm => Sys2Proof.Machine.execLdi o1 imm s
  | .prn o1 => Sys2Proof.Machine.execPrn o1 s
  | .push o1 => Sys2Proof.Machine.execPush o1 s
  | .pop o1 => Sys2Proof.Machine.execPop o1 s
  | .call o1 => Sys2Proof.Machine.execCall o1 s
  | .ret => Sys2Proof.Machine.execRet s
  | .cmp o1 o2 => Sys2Proof.Machine.execCmp o1 o2 s
  | .jmp addr => Sys2Proof.Machine.execJmp addr s
  | .jeq o1 => Sys2Proof.Machine.execJeq o1 s
  | .jne o1 => Sys2Proof.Machine.execJne o1 s
  | .and o1 o2 => Sys2Proof.Machine.execAnd o1 o2 s
  | .or o1 o2 => Sys2Proof.Machine.execOr o1 o2 s
  | .xor o1 o2 => Sys2Proof.Machine.execXor o1 o2 s
  | .shl o1 o2 => Sys2Proof.Machine.execShl o1 o2 s
  | .shr o1 o2 => Sys2Proof.Machine.execShr o1 o2 s
  | .mod o1 o2 => Sys2Proof.Machine.execMod o1 o2 s
  | .add o1 o2 => Sys2Proof.Machine.execAdd o1 o2 s
  | .mul o1 o2 => Sys2Proof.Machine.execMul o1 o2 s
  | .not o1 => Sys2Proof.Machine.execNot o1 s

end Sys2Proof.Machine
end

