-- ==== Sys2Proof/Machine/HostPort.lean ====
section
/-! DEFINITION. What the host can do to the block and see of it (10_state.md R29, R32, R33, 70_reset_and_hazards.md
R135, R136, R148). These are moves beside the step: no instruction makes them. Reading `OUT`, `DIAG`, `pc`, `FL`, the
registers and memory is reading the fields of State, and changes nothing. -/

namespace Sys2Proof.Machine

/-- `reset`, at any time and from any state (R135). The configuration is the machine's own and stays. -/
def State.hostReset (s : State) : State := State.resetWith s.config

/-- Host-load `write(a, v)` (R29); `none` is the AddressError of an address above 255 (20_memory.md R45). -/
def State.hostWrite (s : State) (a : Nat) (v : Byte) : Option State :=
  if a ≤ 255 then some { s with mem := Memory.write s.mem a v } else none

/-- Bytes written to ascending addresses from `a`; `none` where a write fails. -/
def State.hostWriteAll : State → Nat → List Byte → Option State
  | s, _, [] => some s
  | s, a, v :: r =>
    match s.hostWrite a v with
    | none => none
    | some s' => State.hostWriteAll s' (a + 1) r

/-- The image loaded from address 0 (R136); `none` for one of more than 256 bytes (R45). -/
def State.loadImage (s : State) (image : List Byte) : Option State := s.hostWriteAll 0 image

/-- The initial state of a run: reset, then load (R136). -/
def State.initial (c : Config) (image : List Byte) : Option State := (State.resetWith c).loadImage image

/-- What the status outputs tell the host (R32). -/
inductive Status where
  | running
  | halted
  | faulted (r : FaultRecord)
  deriving DecidableEq, Repr

/-- Reading `RUN` and `FAULT` (R32). -/
def State.status (s : State) : Status :=
  if s.run then .running
  else
    match s.fault with
    | none => .halted
    | some r => .faulted r

end Sys2Proof.Machine
end

