-- ==== Sys2Proof/Machine/Fetch.lean ====
section
/-! DEFINITION. Fetch and decode on the machine (30_encoding.md R62, R63): the bytes at `pc`, what a failed fetch
raises, and why a stopped machine takes no step. -/

namespace Sys2Proof.Machine

/-- The byte at offset `k` from the opcode (R60): `MemRead(pc + k, 1)`. -/
def State.codeByte (s : State) (k : Nat) : Option Byte := s.memRead (s.pc.toNat + k)

/-- The instruction at `pc`, its bytes read in the order of R62. -/
def State.fetch (s : State) : Except Reject Instr := decodeFrom s.config.opcodes s.codeByte

/-- The fatal fault of a failed fetch (R62): AddressError with the address, IllegalInstructionFault with the opcode. -/
def State.rejectCause (s : State) : Reject → FaultCause
  | .missingByte k => .addressError (BitVec.ofNat 9 (s.pc.toNat + k))
  | .illegalOpcode op => .illegalInstruction op

/-- Why a state with `RUN = 0` has no step (60_exceptions.md R126). -/
def State.stopReason (s : State) : Fault :=
  match s.fault with
  | none => .halted
  | some r => .faulted r

/-- Bytes put at ascending addresses from `a`, as the host's load puts them; an address above 255 takes none. -/
def State.placeBytes : State → Nat → List Byte → State
  | s, _, [] => s
  | s, a, v :: r => State.placeBytes ((s.hostWrite a v).getD s) (a + 1) r

end Sys2Proof.Machine
end

