-- ==== Sys2Proof/Machine/Step.lean ====
section
/-! DEFINITION. The step (30_encoding.md R62). -/

namespace Sys2Proof.Machine

/-- One step: while `RUN = 1`, fetch, decode and execute one instruction or take one fatal fault (R62, R67); a state
with `RUN = 0` has no step (60_exceptions.md R126). -/
def step (s : State) : Host.Outcome State Fault Refusal :=
  if s.run then
    match s.fetch with
    | .ok i => exec i s
    | .error e => .next (s.raise (s.rejectCause e))
  else .fault s.stopReason

/-- `s` with the bytes of a table word stored where the next step fetches: the host's load of them at `pc`. -/
def State.withFetchWord (s : State) (nbits w : Nat) : State := s.placeBytes s.pc.toNat (tableBytes nbits w)

end Sys2Proof.Machine
end

