-- ==== Sys2Proof/Safety.lean ====
section
/-! DEFINITION. The terms in which claims are made: how a run ends, the invariant of the machine, what an instruction
reads, writes and leaves alone, and the bytes at `pc`. No definition here is used by the machine. -/

namespace Sys2Proof.Machine

/-- The run ended normally: HLT was executed (70_reset_and_hazards.md R140). -/
abbrev State.EndedNormally (s : State) : Prop := s.run = false ∧ s.fault = none

/-- The run ended by a fatal fault (R140). Such a state is safe to inspect but no normal end (60_exceptions.md R126). -/
abbrev State.EndedByFault (s : State) : Prop := s.run = false ∧ s.fault ≠ none

/-- The four values `FL` takes (10_state.md R22). -/
abbrev FlLegal (f : Flags) : Prop := f = 0b000#3 ∨ f = 0b001#3 ∨ f = 0b010#3 ∨ f = 0b100#3

/-- What a FAULT record can say under the opcode map `m` (60_exceptions.md R119, R106). -/
def FaultCause.Possible (m : OpcodeMap) : FaultCause → Prop
  | .illegalInstruction op => m.lookup op = none
  | .registerError o => 8 ≤ o.toNat
  | .addressError a => a = 256
  | .unsupportedOperation _ => False

/-- The invariant of the machine. -/
structure State.Inv (s : State) : Prop where
  /-- Memory is in its canonical form, all of it at 0 to 255 (20_memory.md R36). -/
  memCanonical : Memory.wf s.mem
  /-- `pc` is 0 to 256 (10_state.md R19). -/
  pcRange : s.pc.toNat ≤ 256
  /-- At most one flag is set (10_state.md R22). -/
  flLegal : FlLegal s.fl
  /-- The opcode map is legal (00_scope.md R8). -/
  mapLegal : s.config.opcodes.legal = true
  /-- A running machine has no fault (10_state.md R32). -/
  runningUnfaulted : s.run = true → s.fault = none
  /-- A fault record tells the faulting instruction's address, where `pc` still is, and a possible cause (R119). -/
  faultRecorded : ∀ r, s.fault = some r → r.atPc = s.pc ∧ r.cause.Possible s.config.opcodes

/-- Registers outside `regs`, every byte of memory outside the addresses `stored`, and the configuration are as
before. -/
structure Frame (regs : List Reg) (stored : List Byte) (s t : State) : Prop where
  registers : ∀ r, r ∉ regs → t.reg r = s.reg r
  memory : ∀ a : Nat, (∀ d ∈ stored, a ≠ d.toNat) → t.memRead a = s.memRead a
  config : t.config = s.config

/-- `RUN` and `FAULT` are as before. -/
def KeepsControl (s t : State) : Prop := t.run = s.run ∧ t.fault = s.fault

/-- `FL`, `RUN` and `FAULT` are as before. -/
def KeepsLatches (s t : State) : Prop := t.fl = s.fl ∧ KeepsControl s t

/-- `OUT` and `DIAG` are as before. -/
def KeepsStreams (s t : State) : Prop := t.out = s.out ∧ t.diag = s.diag

/-- `exec i` takes RegisterError with `info = o` (60_exceptions.md R115). -/
def TakesRegisterError (i : Instr) (o : Byte) : Prop := ∀ s, exec i s = .next (s.raise (.registerError o))

/-- The AddressErrors of fetching an instruction of mnemonic `k` and `n` bytes: where it does not end at or below
address 255, the step takes AddressError(256) (60_exceptions.md R116). -/
def OperandFetchFaults (k : Mnemonic) (n : Nat) : Prop :=
  ∀ s : State, s.run = true → s.config.opcodes.legal = true →
    s.codeByte 0 = some (s.config.opcodes.opcodeOf k) → 256 < s.pc.toNat + n →
    step s = .next (s.raise (.addressError 256))

/-- A two-operand ALU instruction as 44_alu.md gives it: `x[a]` becomes the byte that `rel` relates to the two old
values, `pc` advances by 3, and nothing else changes; a bad register operand, the first before the second, and a fetch
past the top of memory raise their faults. -/
def AluEffect (k : Mnemonic) (mk : Byte → Byte → Instr) (rel : Byte → Byte → Byte → Prop) : Prop :=
  (∀ m o1 o2, encode m (mk o1 o2) = [m.opcodeOf k, o1, o2]) ∧
  (∀ a b s, ∃ t, exec (mk (regByte a) (regByte b)) s = .next t ∧ rel (s.reg a) (s.reg b) (t.reg a) ∧
    t.pc = s.pc + 3 ∧ Frame [a] [] s t ∧ KeepsLatches s t ∧ KeepsStreams s t) ∧
  (∀ o1 o2, 7 < o1.toNat → TakesRegisterError (mk o1 o2) o1) ∧
  (∀ a o2, 7 < o2.toNat → TakesRegisterError (mk (regByte a) o2) o2) ∧
  OperandFetchFaults k 3

/-- The register an operand byte names, as a list. -/
def regList (o : Byte) : List Reg := (reg o).toList

/-- The registers an instruction reads in state `s` (10_state.md R15). -/
def regsRead (s : State) : Instr → List Reg
  | .hlt | .ldi _ _ | .jmp _ => []
  | .prn o1 | .not o1 => regList o1
  | .push o1 => sp :: regList o1
  | .pop _ | .ret => [sp]
  | .call o1 => s.callSp :: regList o1
  | .jeq o1 => if s.fl = 0b001#3 then regList o1 else []
  | .jne o1 => if s.fl = 0b001#3 then [] else regList o1
  | .cmp o1 o2 | .and o1 o2 | .or o1 o2 | .xor o1 o2 | .shl o1 o2 | .shr o1 o2 | .mod o1 o2 | .add o1 o2
  | .mul o1 o2 => regList o1 ++ regList o2

/-- The registers an instruction writes in state `s` (10_state.md R15). -/
def regsWritten (s : State) : Instr → List Reg
  | .hlt | .prn _ | .cmp _ _ | .jmp _ | .jeq _ | .jne _ => []
  | .push _ | .ret => [sp]
  | .pop o1 => sp :: regList o1
  | .call _ => [s.callSp]
  | .mod o1 o2 => if ∃ b ∈ regList o2, s.reg b = 0#8 then [] else regList o1
  | .ldi o1 _ | .not o1 | .and o1 _ | .or o1 _ | .xor o1 _ | .shl o1 _ | .shr o1 _ | .add o1 _ | .mul o1 _ =>
    regList o1

/-- The bytes of memory from `pc` up, as many as the longest instruction has and as memory holds. -/
def State.codeBytes (s : State) : List Byte := [0, 1, 2].filterMap s.codeByte

/-- The bytes of `i` stand at `pc`. -/
def State.Holds (s : State) (i : Instr) : Prop :=
  ∀ k, k < i.length → s.codeByte k = (encode s.config.opcodes i)[k]?

end Sys2Proof.Machine
end

