-- ==== Sys2Proof/Certificates/Slice0/Obligations.lean ====
section
/-! DEFINITION. The statements for the provers. Each docstring names what it formalises; `Frame`, `KeepsLatches`,
`KeepsStreams`, `AluEffect` and the other terms stand in Sys2Proof/Safety.lean. A statement about an instruction runs over
every register operand as `regByte a`; the operand bytes 8 to 255 have their own clause. Where a rule names its default
opcode, the statement has it as `defaultOpcodes.<name>`: the value is the spec's default, taken by it from general knowledge
(decision D1, log entry 2), and no other clause rests on it. -/

open Sys2Proof Sys2Proof.Machine

/-! Reset and the invariant -/

/-- 10_state.md R17: all eight registers are 0 after reset, register 7 included, and reading one that no instruction
has written gives 0 and is no fault (shown by PRN). -/
def Obligations.ResetRegistersAreZero : Prop :=
  (∀ c r, (State.resetWith c).reg r = 0) ∧
  ∀ c r, ∃ t, exec (.prn (regByte r)) (State.resetWith c) = .next t ∧ t.out = [0] ∧ t.fault = none

/-- Reset from any state (70_reset_and_hazards.md section 1; 10_state.md section 6, decision D13 for `FAULT`, `OUT`,
`DIAG`): every piece of state has its reset value, all of memory included. -/
def Obligations.ResetFromAnyState : Prop :=
  ∀ s : State, let t := s.hostReset
    (∀ r, t.reg r = 0) ∧ t.pc = 0 ∧ t.fl = 0b000#3 ∧ t.run = true ∧ t.fault = none ∧
    (∀ a, a ≤ 255 → t.memRead a = some 0) ∧ t.out = [] ∧ t.diag = [] ∧ t.config = s.config

/-- The invariant holds after reset, for every legal configuration and for the default one. That memory has the model's
canonical form is the model's own choice (log entry 10), and `FAULT = none` after reset is decision D13 (log entry 24).
-/
def Obligations.ResetMeetsInvariant : Prop :=
  State.reset.Inv ∧ ∀ c : Config, c.opcodes.legal = true → (State.resetWith c).Inv

/-- Every step keeps the invariant: memory canonical (the model's own form, log entry 10) and inside 0 to 255, `pc` at
most 256 (decision D3, log entry 15), at most one flag set, a legal opcode map, no fault in a running machine, and a fault
record that tells a possible cause (decision D8, log entry 25) and the address, where `pc` still is (decision D7, log
entry 19). -/
def Obligations.StepKeepsInvariant : Prop :=
  ∀ s t : State, s.Inv → step s = .next t → t.Inv

/-- Any image loaded after reset, under any configuration (decision D13, log entry 24): registers 0, `pc` 0, running,
memory the image padded with zeros; an image of more than 256 bytes is not loaded (20_memory.md section 4). That memory
then has the canonical form is the model's own choice (log entry 10). -/
def Obligations.ImageLoadedAfterReset : Prop :=
  (∀ c (image : List Byte), image.length ≤ 256 → ∃ s, State.initial c image = some s ∧
    (∀ a, a ≤ 255 → s.memRead a = some (image.getD a 0)) ∧ (∀ r, s.reg r = 0) ∧ s.pc = 0 ∧ s.fl = 0b000#3 ∧
    s.run = true ∧ s.fault = none ∧ s.out = [] ∧ s.diag = [] ∧ s.config = c ∧ Memory.wf s.mem) ∧
  ∀ c (image : List Byte), 256 < image.length → State.initial c image = none

/-! Encoding -/

/-- Words written out from the default opcode table and the formats (log entry 2: the byte values are the spec's
default, from general knowledge): one of each family. -/
def Obligations.DefaultWordsDecode : Prop :=
  decode defaultOpcodes [0x01] = .ok .hlt ∧
  decode defaultOpcodes [0x82, 0x00, 0x08] = .ok (.ldi 0 8) ∧
  decode defaultOpcodes [0x47, 0x03] = .ok (.prn 3) ∧
  decode defaultOpcodes [0x45, 0x07] = .ok (.push 7) ∧
  decode defaultOpcodes [0x50, 0x01] = .ok (.call 1) ∧
  decode defaultOpcodes [0x54, 0xC8] = .ok (.jmp 0xC8) ∧
  decode defaultOpcodes [0xA4, 0x00, 0x01] = .ok (.mod 0 1) ∧
  decode defaultOpcodes [0x69, 0x01] = .ok (.not 1)

/-- Decode and encode agree: under every legal opcode map, the bytes of every instruction decode to it, with every
operand byte kept, whatever follows them. -/
def Obligations.DecodeEncodeRoundTrip : Prop :=
  ∀ (m : OpcodeMap) (i : Instr) (rest : List Byte), m.legal = true → decode m (encode m i ++ rest) = .ok i

/-- The other direction: bytes that decode to an instruction begin with its encoding, under any map. -/
def Obligations.DecodedBytesAreTheEncoding : Prop :=
  ∀ (m : OpcodeMap) (bytes : List Byte) (i : Instr), decode m bytes = .ok i → ∃ rest, bytes = encode m i ++ rest

/-- 30_encoding.md R64 with 60_exceptions.md R114: a byte is one of the twenty opcodes or it is illegal, 236 of the 256
values; fetching an illegal one raises IllegalInstructionFault, recorded with `at = pc` and the byte, stops the machine,
changes nothing else, and needs no operand byte. -/
def Obligations.IllegalOpcodesFault : Prop :=
  (∀ m : OpcodeMap, m.legal = true →
    (List.range 256).countP (fun n => (m.lookup (BitVec.ofNat 8 n)).isNone) = 236) ∧
  (∀ (m : OpcodeMap) op, m.lookup op = none ↔ ∀ k, m.opcodeOf k ≠ op) ∧
  ∀ (s : State) op, s.run = true → s.codeByte 0 = some op → s.config.opcodes.lookup op = none →
    ∃ t, step s = .next t ∧ t.fault = some ⟨.illegalInstruction op, s.pc⟩ ∧ t.run = false ∧
      t.pc = s.pc ∧ t.fl = s.fl ∧ Frame [] [] s t ∧ KeepsStreams s t

/-- The byte `0xFF` is illegal under every legal map, and under the default map (log entry 2) the zeros of an empty
memory are: a start with no image faults at address 0. -/
def Obligations.AllOnesAndEmptyMemoryAreIllegal : Prop :=
  (∀ s : State, s.run = true → s.config.opcodes.legal = true → s.codeByte 0 = some 0xFF →
    step s = .next (s.raise (.illegalInstruction 0xFF))) ∧
  step State.reset = .next (State.reset.raise (.illegalInstruction 0x00))

/-! The step -/

/-- A step runs the decoded instruction: where the bytes from `pc` up decode to `i`, `step` is `exec i`. The step adds
nothing around it: every meaning moves `pc` itself. -/
def Obligations.StepRunsTheDecodedInstruction : Prop :=
  ∀ (s : State) (i : Instr), s.run = true → decode s.config.opcodes s.codeBytes = .ok i → step s = exec i s

/-- The order of the checks (60_exceptions.md section 3, decision D7): too few bytes below the top of memory gives
AddressError(256) whatever the operands; then the first bad register operand gives RegisterError; then the instruction
runs and raises nothing fatal. -/
def Obligations.ChecksAreMadeInOrder : Prop :=
  ∀ (s : State) (i : Instr), s.run = true → s.config.opcodes.legal = true →
    (s.codeByte 0 = some (s.config.opcodes.opcodeOf i.mnemonic) → 256 < s.pc.toNat + i.length →
      step s = .next (s.raise (.addressError 256))) ∧
    (s.Holds i →
      match i.regOperands.find? (fun o => 7 < o.toNat) with
      | some o => step s = .next (s.raise (.registerError o))
      | none => ∃ t, step s = .next t ∧ exec i s = .next t ∧ t.fault = s.fault)

/-- 60_exceptions.md R115: RegisterError is raised by the register operands that are 8 to 255, the first before the
second, of every instruction that has one, and recorded with `at = pc` and the byte; HLT, RET and JMP never raise it. -/
def Obligations.RegisterErrorForms : Prop :=
  (∀ o v, 7 < o.toNat → ∀ i ∈ [Instr.ldi o v, .prn o, .push o, .pop o, .call o, .jeq o, .jne o, .not o],
    TakesRegisterError i o) ∧
  (∀ o p, 7 < o.toNat → ∀ i ∈ [Instr.cmp o p, .add o p, .mul o p, .and o p, .or o p, .xor o p, .shl o p, .shr o p,
    .mod o p], TakesRegisterError i o) ∧
  (∀ a p, 7 < p.toNat → ∀ i ∈ [Instr.cmp (regByte a) p, .add (regByte a) p, .mul (regByte a) p, .and (regByte a) p,
    .or (regByte a) p, .xor (regByte a) p, .shl (regByte a) p, .shr (regByte a) p, .mod (regByte a) p],
    TakesRegisterError i p) ∧
  (∀ v, ∀ i ∈ [Instr.hlt, .ret, .jmp v], ∀ s, ∃ t, exec i s = .next t ∧ t.fault = s.fault) ∧
  ∀ (s : State) o, (s.raise (.registerError o)).fault = some ⟨.registerError o, s.pc⟩ ∧
    (s.raise (.registerError o)).run = false

/-- 60_exceptions.md R116: the opcode fetch at `pc = 256`, the first operand fetch at 255 and the second at 254 raise
AddressError, recorded with `at = pc` and the address 256; no instruction, once fetched, raises it. -/
def Obligations.AddressErrorForms : Prop :=
  (∀ s : State, s.run = true → s.pc = 256 → step s = .next (s.raise (.addressError 256))) ∧
  (∀ (s : State) (i : Instr), s.run = true → s.config.opcodes.legal = true → s.pc = 255 →
    s.codeByte 0 = some (s.config.opcodes.opcodeOf i.mnemonic) → 2 ≤ i.length →
    step s = .next (s.raise (.addressError 256))) ∧
  (∀ (s : State) (i : Instr), s.run = true → s.config.opcodes.legal = true → s.pc = 254 →
    s.codeByte 0 = some (s.config.opcodes.opcodeOf i.mnemonic) → i.length = 3 →
    step s = .next (s.raise (.addressError 256))) ∧
  (∀ (s : State) a, (s.raise (.addressError a)).fault = some ⟨.addressError a, s.pc⟩ ∧
    (s.raise (.addressError a)).run = false) ∧
  ∀ i (s t : State), exec i s = .next t → ∀ a p, t.fault = some ⟨.addressError a, p⟩ → t.fault = s.fault

/-- Fatal faults are precise (60_exceptions.md section 4, decisions D7 and D8): a step that changes `FAULT` records the
address of the opcode, stops the machine, and changes nothing else; control goes nowhere. -/
def Obligations.FatalFaultIsPrecise : Prop :=
  ∀ s t : State, step s = .next t → t.fault ≠ s.fault →
    t.run = false ∧ (∃ c, t.fault = some ⟨c, s.pc⟩) ∧ t.pc = s.pc ∧ t.fl = s.fl ∧ t.mem = s.mem ∧
      Frame [] [] s t ∧ KeepsStreams s t

/-- 44_alu.md R106: no state whatever leads a step to record UnsupportedOperationError. -/
def Obligations.UnsupportedOperationNeverRaised : Prop :=
  ∀ s t : State, step s = .next t → ∀ op p, t.fault = some ⟨.unsupportedOperation op, p⟩ → t.fault = s.fault

/-- A machine with `RUN = 0` has no step, and says whether HLT or a fatal fault stopped it (60_exceptions.md section 4;
decision D8; log entry 4); a machine with `RUN = 1` always has one, and no instruction is refused. -/
def Obligations.StepExistsExactlyWhileRunning : Prop :=
  (∀ s : State, s.run = false → s.fault = none → step s = .fault .halted) ∧
  (∀ (s : State) r, s.run = false → s.fault = some r → step s = .fault (.faulted r)) ∧
  ∀ s : State, s.run = true → ∃ t, step s = .next t

/-- What stops a run from inside (60_exceptions.md section 5): HLT, which changes `RUN` alone (`pc` stays by decision
D11, log entry 22), or a fatal fault, which changes `RUN` and `FAULT` alone (60_exceptions.md section 1; the frame by
decision D7, log entry 19, the record by decision D8, log entry 25). -/
def Obligations.OnlyHltOrFatalFaultStops : Prop :=
  ∀ s t : State, step s = .next t → t.run = false →
    (s.fetch = .ok .hlt ∧ t = s.stop) ∨ ∃ c, t = s.raise c

/-- Every instruction answers a next state in every state and for every operand byte: there is one mode, and nothing is
refused (60_exceptions.md section 5; 30_encoding.md section 5). -/
def Obligations.EveryInstructionAnswers : Prop :=
  ∀ (i : Instr) (s : State), ∃ t, exec i s = .next t

/-- No instruction writes the configuration (00_scope.md section 4; log entry 1). -/
def Obligations.ConfigurationNeverChanges : Prop :=
  ∀ s t : State, step s = .next t → t.config = s.config

/-- The rules are written against mnemonics, never byte values (00_scope.md section 4, decision D1): an instruction does
the same under any opcode map. -/
def Obligations.MeaningIgnoresOpcodeMap : Prop :=
  ∀ (i : Instr) (s t : State) (m : OpcodeMap), exec i s = .next t →
    exec i { s with config := { s.config with opcodes := m } } =
      .next { t with config := { t.config with opcodes := m } }

/-! System, load-immediate, output -/

/-- HLT (40_system.md; `pc` stays by decision D11): clears `RUN` and changes nothing else. -/
def Obligations.HaltStopsAndKeepsState : Prop :=
  (defaultOpcodes.hlt = 0x01 ∧ ∀ m, encode m .hlt = [m.hlt]) ∧
  ∀ s, ∃ t, exec .hlt s = .next t ∧ t.run = false ∧ t.fault = s.fault ∧ t.pc = s.pc ∧ t.fl = s.fl ∧
    Frame [] [] s t ∧ KeepsStreams s t

/-- 41_move_io.md R78: LDI writes the immediate as it is and advances by 3, from `pc = 253` to 256 too. -/
def Obligations.LoadImmediateEffect : Prop :=
  (defaultOpcodes.ldi = 0x82 ∧ ∀ m o1 v, encode m (.ldi o1 v) = [m.ldi, o1, v]) ∧
  (∀ a v s, ∃ t, exec (.ldi (regByte a) v) s = .next t ∧ t.reg a = v ∧ t.pc = s.pc + 3 ∧
    Frame [a] [] s t ∧ KeepsLatches s t ∧ KeepsStreams s t) ∧
  (∀ o1 v, 7 < o1.toNat → TakesRegisterError (.ldi o1 v) o1) ∧
  OperandFetchFaults .ldi 3

/-- PRN (41_move_io.md; a byte is 0 to 255, never negative: decision D4): appends the register's byte to `OUT`. -/
def Obligations.PrintEffect : Prop :=
  (defaultOpcodes.prn = 0x47 ∧ ∀ m o1, encode m (.prn o1) = [m.prn, o1]) ∧
  (∀ a s, ∃ t, exec (.prn (regByte a)) s = .next t ∧ t.out = s.out ++ [s.reg a] ∧ t.diag = s.diag ∧
    t.pc = s.pc + 2 ∧ Frame [] [] s t ∧ KeepsLatches s t) ∧
  (∀ o1, 7 < o1.toNat → TakesRegisterError (.prn o1) o1) ∧
  OperandFetchFaults .prn 2

/-- `OUT` only grows, by one byte and by PRN alone (10_state.md section 5, decision D12). -/
def Obligations.OutputGrowsByPrintAlone : Prop :=
  ∀ s t : State, step s = .next t →
    t.out = s.out ∨ ∃ a, s.fetch = .ok (.prn (regByte a)) ∧ t.out = s.out ++ [s.reg a]

/-! Stack -/

/-- PUSH (42_stack.md; conflict C1, decision D10): the value register `a` had goes to the cell below the old stack
pointer, which moves down by one modulo 256. -/
def Obligations.PushEffect : Prop :=
  (defaultOpcodes.push = 0x45 ∧ ∀ m o1, encode m (.push o1) = [m.push, o1]) ∧
  (∀ a s, ∃ t, exec (.push (regByte a)) s = .next t ∧ t.reg 7 = s.reg 7 - 1#8 ∧ t.load (s.reg 7 - 1#8) = s.reg a ∧
    t.pc = s.pc + 2 ∧ Frame [7] [s.reg 7 - 1#8] s t ∧ KeepsLatches s t ∧ KeepsStreams s t) ∧
  (∀ o1, 7 < o1.toNat → TakesRegisterError (.push o1) o1) ∧
  OperandFetchFaults .push 2

/-- POP (42_stack.md): the byte at the stack pointer goes to register `a`, and the pointer moves up by one modulo 256;
`POP R7` leaves the loaded byte plus one (marked derived in the spec). -/
def Obligations.PopEffect : Prop :=
  (defaultOpcodes.pop = 0x46 ∧ ∀ m o1, encode m (.pop o1) = [m.pop, o1]) ∧
  (∀ a s, ∃ t, exec (.pop (regByte a)) s = .next t ∧ (a ≠ 7 → t.reg a = s.load (s.reg 7)) ∧
    t.reg 7 = (if a = 7 then s.load (s.reg 7) + 1#8 else s.reg 7 + 1#8) ∧
    t.pc = s.pc + 2 ∧ Frame [a, 7] [] s t ∧ KeepsLatches s t ∧ KeepsStreams s t) ∧
  (∀ o1, 7 < o1.toNat → TakesRegisterError (.pop o1) o1) ∧
  OperandFetchFaults .pop 2

/-- PUSH then POP as two steps of a run (42_stack.md section on properties, marked derived): with `a` and `b` not 7, the
value arrives and the pointer returns, for every old pointer, provided the store does not hit the POP instruction. -/
def Obligations.PushThenPopRoundTrips : Prop :=
  ∀ (s : State) (a b : Reg), s.run = true → s.config.opcodes.legal = true → a ≠ 7 → b ≠ 7 → s.pc.toNat ≤ 252 →
    s.codeByte 0 = some s.config.opcodes.push → s.codeByte 1 = some (regByte a) →
    s.codeByte 2 = some s.config.opcodes.pop → s.codeByte 3 = some (regByte b) →
    (s.reg 7 - 1#8).toNat ≠ s.pc.toNat + 2 → (s.reg 7 - 1#8).toNat ≠ s.pc.toNat + 3 →
    ∃ t u, step s = .next t ∧ step t = .next u ∧ u.reg b = s.reg a ∧ u.reg 7 = s.reg 7 ∧
      u.pc.toNat = s.pc.toNat + 4

/-! Control transfer -/

/-- CALL (43_control_transfer.md; conflict C4, decisions D2 and D9): under both values of `CALL_SP_INDEX`, the pointer
moves down by one modulo 256, `(pc + 2) mod 256` goes to the cell it then addresses, and `pc` becomes the target
register's value, read after the decrement. -/
def Obligations.CallEffect : Prop :=
  (defaultOpcodes.call = 0x50 ∧ ∀ m o1, encode m (.call o1) = [m.call, o1]) ∧
  (∀ s : State, s.callSp = match s.config.callSp with | .seven => 7 | .six => 6) ∧
  (∀ a s, ∃ t, exec (.call (regByte a)) s = .next t ∧ t.reg s.callSp = s.reg s.callSp - 1#8 ∧
    (t.load (s.reg s.callSp - 1#8)).toNat = (s.pc.toNat + 2) % 256 ∧
    t.pc.toNat = (if a = s.callSp then s.reg s.callSp - 1#8 else s.reg a).toNat ∧
    Frame [s.callSp] [s.reg s.callSp - 1#8] s t ∧ KeepsLatches s t ∧ KeepsStreams s t) ∧
  (∀ o1, 7 < o1.toNat → TakesRegisterError (.call o1) o1) ∧
  OperandFetchFaults .call 2

/-- RET (43_control_transfer.md; decision D1 for the opcode, D3 for the fetch at 256): it loads `pc` with the byte
register 7 addresses, whatever `CALL_SP_INDEX` is, and moves register 7 up by one modulo 256; it raises nothing of its own.
That `pc` comes from memory, not from register 7 itself, is the spec's reading in conflict C2 (log entry 23). -/
def Obligations.ReturnEffect : Prop :=
  (defaultOpcodes.ret = 0x11 ∧ ∀ m, encode m .ret = [m.ret]) ∧
  (∀ s, ∃ t, exec .ret s = .next t ∧ t.pc.toNat = (s.load (s.reg 7)).toNat ∧ t.reg 7 = s.reg 7 + 1#8 ∧
    Frame [7] [] s t ∧ KeepsLatches s t ∧ KeepsStreams s t) ∧
  ∀ s : State, s.run = true → s.pc = 256 → step s = .next (s.raise (.addressError 256))

/-- CALL then RET (43_control_transfer.md section on `CALL_SP_INDEX`, decision D2; RET reads memory by conflict C2, log
entry 23): where the code between leaves
register 7 holding what CALL left in its pointer, and leaves that cell, RET resumes after the CALL. Under 7 register 7
is CALL's own pointer, so it also comes back to its old value. -/
def Obligations.CallThenReturnRoundTrips : Prop :=
  ∀ (s t u : State) (a : Reg), s.pc.toNat ≤ 253 → exec (.call (regByte a)) s = .next t →
    u.reg 7 = t.reg s.callSp → u.load (u.reg 7) = t.load (u.reg 7) →
    ∃ w, exec .ret u = .next w ∧ w.pc.toNat = s.pc.toNat + 2 ∧
      (s.config.callSp = .seven → w.reg 7 = s.reg 7)

/-- 43_control_transfer.md R88: JMP's operand byte is the absolute target; no register is read, so every operand byte
is legal. -/
def Obligations.JumpEffect : Prop :=
  (defaultOpcodes.jmp = 0x54 ∧ ∀ m v, encode m (.jmp v) = [m.jmp, v]) ∧
  (∀ v s, ∃ t, exec (.jmp v) s = .next t ∧ t.pc.toNat = v.toNat ∧
    Frame [] [] s t ∧ KeepsLatches s t ∧ KeepsStreams s t) ∧
  OperandFetchFaults .jmp 2

/-- 43_control_transfer.md R89: JEQ jumps to `x[a]` exactly when `FL` is EQUAL, else advances by 2; a bad register
operand faults, taken or not. -/
def Obligations.JumpIfEqualEffect : Prop :=
  (defaultOpcodes.jeq = 0x55 ∧ ∀ m o1, encode m (.jeq o1) = [m.jeq, o1]) ∧
  (∀ a s, ∃ t, exec (.jeq (regByte a)) s = .next t ∧
    (s.fl = 0b001#3 → t.pc.toNat = (s.reg a).toNat) ∧ (s.fl ≠ 0b001#3 → t.pc = s.pc + 2) ∧
    Frame [] [] s t ∧ KeepsLatches s t ∧ KeepsStreams s t) ∧
  (∀ s : State, FlLegal s.fl → (s.fl = 0b001#3 ↔ s.fl.getLsbD 0 = true)) ∧
  (∀ o1, 7 < o1.toNat → TakesRegisterError (.jeq o1) o1) ∧
  OperandFetchFaults .jeq 2

/-- 43_control_transfer.md R90: JNE jumps to `x[a]` exactly when `FL` is not EQUAL, before any CMP too, else advances
by 2; in every state exactly one of JEQ and JNE goes to the target, the other one to `pc + 2`. -/
def Obligations.JumpIfNotEqualEffect : Prop :=
  (defaultOpcodes.jne = 0x56 ∧ ∀ m o1, encode m (.jne o1) = [m.jne, o1]) ∧
  (∀ a s, ∃ t, exec (.jne (regByte a)) s = .next t ∧
    (s.fl ≠ 0b001#3 → t.pc.toNat = (s.reg a).toNat) ∧ (s.fl = 0b001#3 → t.pc = s.pc + 2) ∧
    Frame [] [] s t ∧ KeepsLatches s t ∧ KeepsStreams s t) ∧
  (∀ a s, ∃ t u, exec (.jeq (regByte a)) s = .next t ∧ exec (.jne (regByte a)) s = .next u ∧
    ((t = s.jump (s.reg a) ∧ u = s.advance 2) ∨ (t = s.advance 2 ∧ u = s.jump (s.reg a)))) ∧
  (∀ o1, 7 < o1.toNat → TakesRegisterError (.jne o1) o1) ∧
  OperandFetchFaults .jne 2

/-- Straight-line code moves up (70_reset_and_hazards.md section 5, marked derived): a step of any instruction that is
not HLT, CALL, RET, JMP or a taken JEQ or JNE, and takes no fault, adds the instruction's length, 2 or 3, to `pc`,
which does not wrap (D3). -/
def Obligations.StraightLineCodeMovesUp : Prop :=
  ∀ (s t : State) (i : Instr), s.run = true → s.fetch = .ok i → step s = .next t → t.run = true →
    (∀ o, i ≠ .call o) → i ≠ .ret → (∀ v, i ≠ .jmp v) →
    (∀ o, i = .jeq o → s.fl ≠ 0b001#3) → (∀ o, i = .jne o → s.fl = 0b001#3) →
    t.pc.toNat = s.pc.toNat + i.length ∧ (i.length = 2 ∨ i.length = 3)

/-! The ALU -/

/-- CMP (44_alu.md; unsigned by decision D4, the first operand the subject by D5): `FL` becomes EQUAL, GREATER or
LESS, and no register is written. -/
def Obligations.CompareEffect : Prop :=
  (defaultOpcodes.cmp = 0xA7 ∧ ∀ m o1 o2, encode m (.cmp o1 o2) = [m.cmp, o1, o2]) ∧
  (∀ a b s, ∃ t, exec (.cmp (regByte a) (regByte b)) s = .next t ∧
    (s.reg a = s.reg b → t.fl = 0b001#3) ∧ ((s.reg b).toNat < (s.reg a).toNat → t.fl = 0b010#3) ∧
    ((s.reg a).toNat < (s.reg b).toNat → t.fl = 0b100#3) ∧
    t.pc = s.pc + 3 ∧ Frame [] [] s t ∧ KeepsControl s t ∧ KeepsStreams s t) ∧
  (∀ o1 o2, 7 < o1.toNat → TakesRegisterError (.cmp o1 o2) o1) ∧
  (∀ a o2, 7 < o2.toNat → TakesRegisterError (.cmp (regByte a) o2) o2) ∧
  OperandFetchFaults .cmp 3

/-- 44_alu.md R95: ADD writes the sum modulo 256. -/
def Obligations.AddEffect : Prop :=
  defaultOpcodes.add = 0xA0 ∧ AluEffect .add .add fun u v w => w.toNat = (u.toNat + v.toNat) % 256

/-- 44_alu.md R96: MUL writes the product modulo 256. -/
def Obligations.MulEffect : Prop :=
  defaultOpcodes.mul = 0xA2 ∧ AluEffect .mul .mul fun u v w => w.toNat = (u.toNat * v.toNat) % 256

/-- 44_alu.md R97: AND, bit by bit. -/
def Obligations.AndEffect : Prop :=
  defaultOpcodes.and = 0xA8 ∧
  AluEffect .and .and fun u v w => ∀ i, i < 8 → w.getLsbD i = (u.getLsbD i && v.getLsbD i)

/-- 44_alu.md R98: OR, bit by bit. -/
def Obligations.OrEffect : Prop :=
  defaultOpcodes.or = 0xAA ∧
  AluEffect .or .or fun u v w => ∀ i, i < 8 → w.getLsbD i = (u.getLsbD i || v.getLsbD i)

/-- 44_alu.md R99: XOR, bit by bit; a register with itself gives 0. -/
def Obligations.XorEffect : Prop :=
  defaultOpcodes.xor = 0xAB ∧
  AluEffect .xor .xor fun u v w => ∀ i, i < 8 → w.getLsbD i = (u.getLsbD i ^^ v.getLsbD i)

/-- 44_alu.md R100: NOT writes `255 - x[a]`, every bit inverted, and advances by 2. -/
def Obligations.NotEffect : Prop :=
  (defaultOpcodes.not = 0x69 ∧ ∀ m o1, encode m (.not o1) = [m.not, o1]) ∧
  (∀ a s, ∃ t, exec (.not (regByte a)) s = .next t ∧ (t.reg a).toNat = 255 - (s.reg a).toNat ∧
    (∀ i, i < 8 → (t.reg a).getLsbD i = !(s.reg a).getLsbD i) ∧
    t.pc = s.pc + 2 ∧ Frame [a] [] s t ∧ KeepsLatches s t ∧ KeepsStreams s t) ∧
  (∀ o1, 7 < o1.toNat → TakesRegisterError (.not o1) o1) ∧
  OperandFetchFaults .not 2

/-- SHL (44_alu.md; the amount is not masked: decision D6): `x[a] * 2^n` modulo 256, and 0 for an amount of 8 or
more. -/
def Obligations.ShiftLeftEffect : Prop :=
  defaultOpcodes.shl = 0xAC ∧
  AluEffect .shl .shl fun u n w =>
    (8 ≤ n.toNat → w = 0) ∧ (n.toNat < 8 → w.toNat = (u.toNat * 2 ^ n.toNat) % 256)

/-- SHR (44_alu.md; logical and not masked: decisions D4 and D6): bit `i` of the result is bit `i + n` of the operand,
and 0 from the top, so an amount of 8 or more gives 0. -/
def Obligations.ShiftRightEffect : Prop :=
  defaultOpcodes.shr = 0xAD ∧
  AluEffect .shr .shr fun u n w =>
    (8 ≤ n.toNat → w = 0) ∧ (n.toNat < 8 → w.toNat = u.toNat / 2 ^ n.toNat) ∧
      ∀ i, i < 8 → w.getLsbD i = u.getLsbD (i + n.toNat)

/-- MOD (44_alu.md; unsigned by decision D4): for a divisor that is not 0 the remainder `r` of `x[a] = q * x[b] + r`,
`r < x[b]`; for divisor 0 no register is written and the event `DivideByZero(pc)` is reported; `pc` advances by 3 in
both branches and the machine goes on. -/
def Obligations.ModEffect : Prop :=
  (defaultOpcodes.mod = 0xA4 ∧ ∀ m o1 o2, encode m (.mod o1 o2) = [m.mod, o1, o2]) ∧
  (∀ a b s, ∃ t, exec (.mod (regByte a) (regByte b)) s = .next t ∧
    (s.reg b ≠ 0#8 → (∃ q, (s.reg a).toNat = q * (s.reg b).toNat + (t.reg a).toNat) ∧
      (t.reg a).toNat < (s.reg b).toNat ∧ Frame [a] [] s t ∧ t.diag = s.diag) ∧
    (s.reg b = 0#8 → Frame [] [] s t ∧ t.diag = s.diag ++ [.divideByZero s.pc]) ∧
    t.pc = s.pc + 3 ∧ t.out = s.out ∧ KeepsLatches s t) ∧
  (∀ o1 o2, 7 < o1.toNat → TakesRegisterError (.mod o1 o2) o1) ∧
  (∀ a o2, 7 < o2.toNat → TakesRegisterError (.mod (regByte a) o2) o2) ∧
  OperandFetchFaults .mod 3

/-- 60_exceptions.md R118: DivideByZeroFault is raised by MOD with `x[b] = 0` and by nothing else; it appends
`DivideByZero(pc)` to `DIAG`, leaves every register, `RUN` and `FAULT`, and advances `pc` by 3; the next step proceeds,
and no register, flag or byte of memory records the fault. -/
def Obligations.DivideByZeroIsReportedByModAlone : Prop :=
  (∀ a b (s : State), s.reg b = 0#8 → ∃ t, exec (.mod (regByte a) (regByte b)) s = .next t ∧
    t.diag = s.diag ++ [.divideByZero s.pc] ∧ t.pc = s.pc + 3 ∧ t.out = s.out ∧ Frame [] [] s t ∧ KeepsLatches s t ∧
    (s.run = true → ∃ u, step t = .next u)) ∧
  ∀ s t : State, step s = .next t → t.diag ≠ s.diag →
    ∃ a b, s.fetch = .ok (.mod (regByte a) (regByte b)) ∧ s.reg b = 0#8

/-- Both operands the same register (44_alu.md section 3, marked derived): both reads see the old value, so ADD doubles,
MUL squares, AND and OR leave the value, XOR clears, MOD gives 0, and CMP gives EQUAL. -/
def Obligations.SameRegisterTwice : Prop :=
  ∀ (a : Reg) (s : State),
    (∃ t, exec (.add (regByte a) (regByte a)) s = .next t ∧ (t.reg a).toNat = 2 * (s.reg a).toNat % 256) ∧
    (∃ t, exec (.mul (regByte a) (regByte a)) s = .next t ∧ (t.reg a).toNat = (s.reg a).toNat ^ 2 % 256) ∧
    (∃ t, exec (.and (regByte a) (regByte a)) s = .next t ∧ t.reg a = s.reg a) ∧
    (∃ t, exec (.or (regByte a) (regByte a)) s = .next t ∧ t.reg a = s.reg a) ∧
    (∃ t, exec (.xor (regByte a) (regByte a)) s = .next t ∧ t.reg a = 0#8) ∧
    (∃ t, exec (.mod (regByte a) (regByte a)) s = .next t ∧ t.reg a = 0#8) ∧
    (∃ t, exec (.cmp (regByte a) (regByte a)) s = .next t ∧ t.fl = 0b001#3)

/-! The machine as a whole -/

/-- 10_state.md R16: register writes wrap: 255 + 1 stores 0, 0 - 1 stores 255 (the pointer of PUSH), and the complement
of `v` stores `255 - v`. -/
def Obligations.RegisterWritesWrap : Prop :=
  (∀ v, (trunc8 v).toNat = v % 256) ∧
  (∀ a b (s : State), s.reg a = 255 → s.reg b = 1 →
    ∃ t, exec (.add (regByte a) (regByte b)) s = .next t ∧ t.reg a = 0#8) ∧
  (∀ a (s : State), s.reg 7 = 0 → ∃ t, exec (.push (regByte a)) s = .next t ∧ t.reg 7 = 255) ∧
  ∀ a (s : State), ∃ t, exec (.not (regByte a)) s = .next t ∧ (t.reg a).toNat = 255 - (s.reg a).toNat

/-- 10_state.md R15, the table of registers read and written (`regsRead`, `regsWritten`): an instruction writes no
register outside its set; and two states that differ only in registers it does not read lead to states that differ only
in registers it does not write. -/
def Obligations.RegistersReadAndWritten : Prop :=
  ∀ (i : Instr) (s s' t t' : State), { s' with x := s.x } = s → (∀ r ∈ regsRead s i, s'.reg r = s.reg r) →
    exec i s = .next t → exec i s' = .next t' →
    (∀ r, r ∉ regsWritten s i → t.reg r = s.reg r) ∧ (∀ r ∈ regsWritten s i, t'.reg r = t.reg r) ∧ { t' with x := t.x } = t

/-- 10_state.md R22: `FL` keeps to its four values, at most one bit set, from any of them; it is `0b000` after reset, and
CMP can make it each of the other three. -/
def Obligations.FlagsStayOneHot : Prop :=
  State.reset.fl = 0b000#3 ∧
  (∀ s t : State, FlLegal s.fl → step s = .next t → FlLegal t.fl) ∧
  (∀ i (s t : State), FlLegal s.fl → exec i s = .next t → FlLegal t.fl) ∧
  (∀ a b (s : State), ∃ t, exec (.cmp (regByte a) (regByte b)) s = .next t ∧
    (t.fl = 0b001#3 ∨ t.fl = 0b010#3 ∨ t.fl = 0b100#3)) ∧
  ∀ v : Flags, v = 0b001#3 ∨ v = 0b010#3 ∨ v = 0b100#3 →
    ∃ (a b : Reg) (s t : State), s.fl = 0b000#3 ∧ exec (.cmp (regByte a) (regByte b)) s = .next t ∧ t.fl = v

/-- 10_state.md R23: only CMP writes `FL`; only JEQ and JNE read it: any other instruction does the same whatever `FL`
holds, which then either stays or is overwritten; once set it never returns to `0b000`; no fault and no HLT changes it;
after reset it is `0b000`. -/
def Obligations.OnlyCompareWritesFlags : Prop :=
  (∀ i (s t : State), exec i s = .next t → t.fl ≠ s.fl → ∃ a b, i = .cmp (regByte a) (regByte b)) ∧
  (∀ i, (∀ o, i ≠ .jeq o) → (∀ o, i ≠ .jne o) → ∀ (s t : State) f, exec i s = .next t →
    exec i (s.setFl f) = .next (t.setFl f) ∨ exec i (s.setFl f) = .next t) ∧
  (∀ s t : State, step s = .next t → s.fl ≠ 0b000#3 → t.fl ≠ 0b000#3) ∧
  (∀ (s : State) c, (s.raise c).fl = s.fl) ∧ (∀ s t : State, exec .hlt s = .next t → t.fl = s.fl) ∧
  State.reset.fl = 0b000#3

/-- 20_memory.md R36: 256 byte cells at 0 to 255 and no others; every cell reads 0 after reset, and then the value last
written to it; a write changes no other cell. -/
def Obligations.MemoryHoldsTheLastWrite : Prop :=
  (∀ c a, a ≤ 255 → (State.resetWith c).memRead a = some 0) ∧
  (∀ s : State, ∀ a, (∃ v, s.memRead a = some v) ↔ a ≤ 255) ∧
  (∀ (s : State) (a v : Byte), (s.store a v).memRead a.toNat = some v) ∧
  ∀ (s : State) (a v : Byte) (b : Nat), b ≠ a.toNat → (s.store a v).memRead b = s.memRead b

/-- 20_memory.md R37: PUSH and CALL change one byte, at the pointer after its decrement, and nothing else changes
memory; POP and RET read one byte, at register 7 before its increment, and nothing else reads memory beyond its own
bytes: the same instruction on another memory (for POP and RET, one with the same byte there) does the same to the rest
of the state. -/
def Obligations.MemoryIsReachedByStackInstructionsAlone : Prop :=
  (∀ i (s t : State), exec i s = .next t → ∀ a : Nat, t.memRead a ≠ s.memRead a →
    (∃ o, i = .push o ∧ a = (s.reg 7 - 1#8).toNat) ∨ (∃ o, i = .call o ∧ a = (s.reg s.callSp - 1#8).toNat)) ∧
  (∀ i, (∀ o, i ≠ .pop o) → i ≠ .ret → ∀ (s t : State) (m : Memory), exec i s = .next t →
    ∃ m', exec i { s with mem := m } = .next { t with mem := m' }) ∧
  ∀ o, ∀ i ∈ [Instr.pop o, .ret], ∀ (s t : State) (m : Memory),
    Memory.read m (s.reg 7).toNat = s.load (s.reg 7) → exec i s = .next t →
    exec i { s with mem := m } = .next { t with mem := m }

/-- Memory in canonical form is fixed by what its addresses read as: equal memories are equal data (the model's own
form: log entry 10). -/
def Obligations.CanonicalMemoriesAreEqualWhenReadsAre : Prop :=
  ∀ m m' : Memory, Memory.wf m → Memory.wf m' → (∀ a, a ≤ 255 → Memory.read m a = Memory.read m' a) → m = m'
end

