-- ==== Sys2Proof/Laws/Decode.lean ====
section
/-! SUPPORT. The opcode lookup and the formats. -/

namespace Sys2Proof

theorem Mnemonic.mem_all (k : Mnemonic) : k ∈ Mnemonic.all := by cases k <;> decide

/-- A found mnemonic has the byte looked up. -/
theorem OpcodeMap.lookup_some {m : OpcodeMap} {op : Byte} {k : Mnemonic} (h : m.lookup op = some k) :
    m.opcodeOf k = op := by
  simpa using List.find?_some h

/-- No mnemonic is found exactly when no mnemonic has the byte. -/
theorem OpcodeMap.lookup_none {m : OpcodeMap} {op : Byte} : m.lookup op = none ↔ ∀ k, m.opcodeOf k ≠ op := by
  simp only [OpcodeMap.lookup, List.find?_eq_none, beq_iff_eq]
  exact ⟨fun h k => h k k.mem_all, fun h k _ => h k⟩

/-- A legal map gives different mnemonics different bytes. -/
theorem OpcodeMap.opcodeOf_injective {m : OpcodeMap} (hm : m.legal = true) {j k : Mnemonic}
    (h : m.opcodeOf j = m.opcodeOf k) : j = k := by
  simp only [OpcodeMap.legal, OpcodeMap.injective, Bool.and_eq_true, decide_eq_true_eq] at hm
  exact List.inj_on_of_nodup_map hm.1 j.mem_all k.mem_all h

/-- Under a legal map the byte of a mnemonic finds that mnemonic. -/
theorem OpcodeMap.lookup_opcodeOf {m : OpcodeMap} (hm : m.legal = true) (k : Mnemonic) :
    m.lookup (m.opcodeOf k) = some k := by
  cases h : m.lookup (m.opcodeOf k) with
  | none => exact absurd rfl (OpcodeMap.lookup_none.mp h k)
  | some j => rw [OpcodeMap.opcodeOf_injective hm (OpcodeMap.lookup_some h)]

/-- A legal map does not hold `0xFF`. -/
theorem OpcodeMap.lookup_ff {m : OpcodeMap} (hm : m.legal = true) : m.lookup 0xFF = none := by
  simp only [OpcodeMap.legal, OpcodeMap.avoidsFF, Bool.and_eq_true, List.all_eq_true, bne_iff_ne] at hm
  exact OpcodeMap.lookup_none.mpr fun k => hm.2 k k.mem_all

/-- The default map is legal. -/
theorem defaultOpcodes_legal : defaultOpcodes.legal = true := by decide

/-- The length counts the opcode byte and the operand bytes. -/
theorem Instr.length_eq (i : Instr) : i.length = i.operandBytes.length + 1 := by cases i <;> rfl

/-- What a mnemonic's format builds has that mnemonic and those operand bytes. -/
theorem Mnemonic.form_builds (k : Mnemonic) :
    match k.form with
    | .f0 i => i.mnemonic = k ∧ i.operandBytes = []
    | .f1 mk => ∀ o1, (mk o1).mnemonic = k ∧ (mk o1).operandBytes = [o1]
    | .f2 mk => ∀ o1 o2, (mk o1 o2).mnemonic = k ∧ (mk o1 o2).operandBytes = [o1, o2] := by
  cases k <;> simp [Mnemonic.form, Instr.mnemonic, Instr.operandBytes]

end Sys2Proof
end

