-- ==== Sys2Proof/Laws/State.lean ====
section
/-! SUPPORT. One lemma per field per update of State, and the observers `reg`, `load`, `memRead` over the updates. -/

namespace Sys2Proof.Machine

variable (s : State)

@[simp] theorem State.setReg_x (r : Reg) (v : Byte) : (s.setReg r v).x = s.x.set r.val v r.isLt := rfl
@[simp] theorem State.setReg_pc (r : Reg) (v : Byte) : (s.setReg r v).pc = s.pc := rfl
@[simp] theorem State.setReg_fl (r : Reg) (v : Byte) : (s.setReg r v).fl = s.fl := rfl
@[simp] theorem State.setReg_run (r : Reg) (v : Byte) : (s.setReg r v).run = s.run := rfl
@[simp] theorem State.setReg_fault (r : Reg) (v : Byte) : (s.setReg r v).fault = s.fault := rfl
@[simp] theorem State.setReg_mem (r : Reg) (v : Byte) : (s.setReg r v).mem = s.mem := rfl
@[simp] theorem State.setReg_out (r : Reg) (v : Byte) : (s.setReg r v).out = s.out := rfl
@[simp] theorem State.setReg_diag (r : Reg) (v : Byte) : (s.setReg r v).diag = s.diag := rfl
@[simp] theorem State.setReg_config (r : Reg) (v : Byte) : (s.setReg r v).config = s.config := rfl

@[simp] theorem State.setReg_load (r : Reg) (v : Byte) (b : Byte) : (s.setReg r v).load b = s.load b := rfl
@[simp] theorem State.setReg_memRead (r : Reg) (v : Byte) (b : Nat) : (s.setReg r v).memRead b = s.memRead b := rfl
@[simp] theorem State.setReg_callSp (r : Reg) (v : Byte) : (s.setReg r v).callSp = s.callSp := rfl

@[simp] theorem State.store_x (a v : Byte) : (s.store a v).x = s.x := rfl
@[simp] theorem State.store_pc (a v : Byte) : (s.store a v).pc = s.pc := rfl
@[simp] theorem State.store_fl (a v : Byte) : (s.store a v).fl = s.fl := rfl
@[simp] theorem State.store_run (a v : Byte) : (s.store a v).run = s.run := rfl
@[simp] theorem State.store_fault (a v : Byte) : (s.store a v).fault = s.fault := rfl
@[simp] theorem State.store_mem (a v : Byte) : (s.store a v).mem = Memory.write s.mem a.toNat v := rfl
@[simp] theorem State.store_out (a v : Byte) : (s.store a v).out = s.out := rfl
@[simp] theorem State.store_diag (a v : Byte) : (s.store a v).diag = s.diag := rfl
@[simp] theorem State.store_config (a v : Byte) : (s.store a v).config = s.config := rfl

@[simp] theorem State.store_reg (a v : Byte) (q : Reg) : (s.store a v).reg q = s.reg q := rfl
@[simp] theorem State.store_callSp (a v : Byte) : (s.store a v).callSp = s.callSp := rfl

@[simp] theorem State.setPc_x (t : Addr) : (s.setPc t).x = s.x := rfl
@[simp] theorem State.setPc_pc (t : Addr) : (s.setPc t).pc = t := rfl
@[simp] theorem State.setPc_fl (t : Addr) : (s.setPc t).fl = s.fl := rfl
@[simp] theorem State.setPc_run (t : Addr) : (s.setPc t).run = s.run := rfl
@[simp] theorem State.setPc_fault (t : Addr) : (s.setPc t).fault = s.fault := rfl
@[simp] theorem State.setPc_mem (t : Addr) : (s.setPc t).mem = s.mem := rfl
@[simp] theorem State.setPc_out (t : Addr) : (s.setPc t).out = s.out := rfl
@[simp] theorem State.setPc_diag (t : Addr) : (s.setPc t).diag = s.diag := rfl
@[simp] theorem State.setPc_config (t : Addr) : (s.setPc t).config = s.config := rfl

@[simp] theorem State.setPc_reg (t : Addr) (q : Reg) : (s.setPc t).reg q = s.reg q := rfl
@[simp] theorem State.setPc_load (t : Addr) (b : Byte) : (s.setPc t).load b = s.load b := rfl
@[simp] theorem State.setPc_memRead (t : Addr) (b : Nat) : (s.setPc t).memRead b = s.memRead b := rfl
@[simp] theorem State.setPc_callSp (t : Addr) : (s.setPc t).callSp = s.callSp := rfl

@[simp] theorem State.advance_x (n : Nat) : (s.advance n).x = s.x := rfl
@[simp] theorem State.advance_pc (n : Nat) : (s.advance n).pc = s.pc + BitVec.ofNat 9 n := rfl
@[simp] theorem State.advance_fl (n : Nat) : (s.advance n).fl = s.fl := rfl
@[simp] theorem State.advance_run (n : Nat) : (s.advance n).run = s.run := rfl
@[simp] theorem State.advance_fault (n : Nat) : (s.advance n).fault = s.fault := rfl
@[simp] theorem State.advance_mem (n : Nat) : (s.advance n).mem = s.mem := rfl
@[simp] theorem State.advance_out (n : Nat) : (s.advance n).out = s.out := rfl
@[simp] theorem State.advance_diag (n : Nat) : (s.advance n).diag = s.diag := rfl
@[simp] theorem State.advance_config (n : Nat) : (s.advance n).config = s.config := rfl

@[simp] theorem State.advance_reg (n : Nat) (q : Reg) : (s.advance n).reg q = s.reg q := rfl
@[simp] theorem State.advance_load (n : Nat) (b : Byte) : (s.advance n).load b = s.load b := rfl
@[simp] theorem State.advance_memRead (n : Nat) (b : Nat) : (s.advance n).memRead b = s.memRead b := rfl
@[simp] theorem State.advance_callSp (n : Nat) : (s.advance n).callSp = s.callSp := rfl

@[simp] theorem State.jump_x (t : Byte) : (s.jump t).x = s.x := rfl
@[simp] theorem State.jump_pc (t : Byte) : (s.jump t).pc = t.setWidth 9 := rfl
@[simp] theorem State.jump_fl (t : Byte) : (s.jump t).fl = s.fl := rfl
@[simp] theorem State.jump_run (t : Byte) : (s.jump t).run = s.run := rfl
@[simp] theorem State.jump_fault (t : Byte) : (s.jump t).fault = s.fault := rfl
@[simp] theorem State.jump_mem (t : Byte) : (s.jump t).mem = s.mem := rfl
@[simp] theorem State.jump_out (t : Byte) : (s.jump t).out = s.out := rfl
@[simp] theorem State.jump_diag (t : Byte) : (s.jump t).diag = s.diag := rfl
@[simp] theorem State.jump_config (t : Byte) : (s.jump t).config = s.config := rfl

@[simp] theorem State.jump_reg (t : Byte) (q : Reg) : (s.jump t).reg q = s.reg q := rfl
@[simp] theorem State.jump_load (t : Byte) (b : Byte) : (s.jump t).load b = s.load b := rfl
@[simp] theorem State.jump_memRead (t : Byte) (b : Nat) : (s.jump t).memRead b = s.memRead b := rfl
@[simp] theorem State.jump_callSp (t : Byte) : (s.jump t).callSp = s.callSp := rfl

@[simp] theorem State.setFl_x (f : Flags) : (s.setFl f).x = s.x := rfl
@[simp] theorem State.setFl_pc (f : Flags) : (s.setFl f).pc = s.pc := rfl
@[simp] theorem State.setFl_fl (f : Flags) : (s.setFl f).fl = f := rfl
@[simp] theorem State.setFl_run (f : Flags) : (s.setFl f).run = s.run := rfl
@[simp] theorem State.setFl_fault (f : Flags) : (s.setFl f).fault = s.fault := rfl
@[simp] theorem State.setFl_mem (f : Flags) : (s.setFl f).mem = s.mem := rfl
@[simp] theorem State.setFl_out (f : Flags) : (s.setFl f).out = s.out := rfl
@[simp] theorem State.setFl_diag (f : Flags) : (s.setFl f).diag = s.diag := rfl
@[simp] theorem State.setFl_config (f : Flags) : (s.setFl f).config = s.config := rfl

@[simp] theorem State.setFl_reg (f : Flags) (q : Reg) : (s.setFl f).reg q = s.reg q := rfl
@[simp] theorem State.setFl_load (f : Flags) (b : Byte) : (s.setFl f).load b = s.load b := rfl
@[simp] theorem State.setFl_memRead (f : Flags) (b : Nat) : (s.setFl f).memRead b = s.memRead b := rfl
@[simp] theorem State.setFl_callSp (f : Flags) : (s.setFl f).callSp = s.callSp := rfl

@[simp] theorem State.emit_x (v : Byte) : (s.emit v).x = s.x := rfl
@[simp] theorem State.emit_pc (v : Byte) : (s.emit v).pc = s.pc := rfl
@[simp] theorem State.emit_fl (v : Byte) : (s.emit v).fl = s.fl := rfl
@[simp] theorem State.emit_run (v : Byte) : (s.emit v).run = s.run := rfl
@[simp] theorem State.emit_fault (v : Byte) : (s.emit v).fault = s.fault := rfl
@[simp] theorem State.emit_mem (v : Byte) : (s.emit v).mem = s.mem := rfl
@[simp] theorem State.emit_out (v : Byte) : (s.emit v).out = s.out ++ [v] := rfl
@[simp] theorem State.emit_diag (v : Byte) : (s.emit v).diag = s.diag := rfl
@[simp] theorem State.emit_config (v : Byte) : (s.emit v).config = s.config := rfl

@[simp] theorem State.emit_reg (v : Byte) (q : Reg) : (s.emit v).reg q = s.reg q := rfl
@[simp] theorem State.emit_load (v : Byte) (b : Byte) : (s.emit v).load b = s.load b := rfl
@[simp] theorem State.emit_memRead (v : Byte) (b : Nat) : (s.emit v).memRead b = s.memRead b := rfl
@[simp] theorem State.emit_callSp (v : Byte) : (s.emit v).callSp = s.callSp := rfl

@[simp] theorem State.report_x (e : DiagEvent) : (s.report e).x = s.x := rfl
@[simp] theorem State.report_pc (e : DiagEvent) : (s.report e).pc = s.pc := rfl
@[simp] theorem State.report_fl (e : DiagEvent) : (s.report e).fl = s.fl := rfl
@[simp] theorem State.report_run (e : DiagEvent) : (s.report e).run = s.run := rfl
@[simp] theorem State.report_fault (e : DiagEvent) : (s.report e).fault = s.fault := rfl
@[simp] theorem State.report_mem (e : DiagEvent) : (s.report e).mem = s.mem := rfl
@[simp] theorem State.report_out (e : DiagEvent) : (s.report e).out = s.out := rfl
@[simp] theorem State.report_diag (e : DiagEvent) : (s.report e).diag = s.diag ++ [e] := rfl
@[simp] theorem State.report_config (e : DiagEvent) : (s.report e).config = s.config := rfl

@[simp] theorem State.report_reg (e : DiagEvent) (q : Reg) : (s.report e).reg q = s.reg q := rfl
@[simp] theorem State.report_load (e : DiagEvent) (b : Byte) : (s.report e).load b = s.load b := rfl
@[simp] theorem State.report_memRead (e : DiagEvent) (b : Nat) : (s.report e).memRead b = s.memRead b := rfl
@[simp] theorem State.report_callSp (e : DiagEvent) : (s.report e).callSp = s.callSp := rfl

@[simp] theorem State.stop_x : (s.stop).x = s.x := rfl
@[simp] theorem State.stop_pc : (s.stop).pc = s.pc := rfl
@[simp] theorem State.stop_fl : (s.stop).fl = s.fl := rfl
@[simp] theorem State.stop_run : (s.stop).run = false := rfl
@[simp] theorem State.stop_fault : (s.stop).fault = s.fault := rfl
@[simp] theorem State.stop_mem : (s.stop).mem = s.mem := rfl
@[simp] theorem State.stop_out : (s.stop).out = s.out := rfl
@[simp] theorem State.stop_diag : (s.stop).diag = s.diag := rfl
@[simp] theorem State.stop_config : (s.stop).config = s.config := rfl

@[simp] theorem State.stop_reg (q : Reg) : (s.stop).reg q = s.reg q := rfl
@[simp] theorem State.stop_load (b : Byte) : (s.stop).load b = s.load b := rfl
@[simp] theorem State.stop_memRead (b : Nat) : (s.stop).memRead b = s.memRead b := rfl
@[simp] theorem State.stop_callSp : (s.stop).callSp = s.callSp := rfl

@[simp] theorem State.raise_x (c : FaultCause) : (s.raise c).x = s.x := rfl
@[simp] theorem State.raise_pc (c : FaultCause) : (s.raise c).pc = s.pc := rfl
@[simp] theorem State.raise_fl (c : FaultCause) : (s.raise c).fl = s.fl := rfl
@[simp] theorem State.raise_run (c : FaultCause) : (s.raise c).run = false := rfl
@[simp] theorem State.raise_fault (c : FaultCause) : (s.raise c).fault = some ⟨c, s.pc⟩ := rfl
@[simp] theorem State.raise_mem (c : FaultCause) : (s.raise c).mem = s.mem := rfl
@[simp] theorem State.raise_out (c : FaultCause) : (s.raise c).out = s.out := rfl
@[simp] theorem State.raise_diag (c : FaultCause) : (s.raise c).diag = s.diag := rfl
@[simp] theorem State.raise_config (c : FaultCause) : (s.raise c).config = s.config := rfl

@[simp] theorem State.raise_reg (c : FaultCause) (q : Reg) : (s.raise c).reg q = s.reg q := rfl
@[simp] theorem State.raise_load (c : FaultCause) (b : Byte) : (s.raise c).load b = s.load b := rfl
@[simp] theorem State.raise_memRead (c : FaultCause) (b : Nat) : (s.raise c).memRead b = s.memRead b := rfl
@[simp] theorem State.raise_callSp (c : FaultCause) : (s.raise c).callSp = s.callSp := rfl

/-- A register read after a register write. -/
@[simp] theorem State.setReg_reg (r q : Reg) (v : Byte) :
    (s.setReg r v).reg q = if r = q then v else s.reg q := by
  simp [State.reg, State.setReg, Vector.getElem_set, Fin.ext_iff]

/-- Two states with the same registers and the same other fields are equal. -/
theorem State.x_ext (x y : Vector Byte 8) (h : ∀ r : Reg, x[r.val]'(r.isLt) = y[r.val]'(r.isLt)) : x = y :=
  Vector.ext fun i hi => h ⟨i, hi⟩

end Sys2Proof.Machine
end

