-- ==== Sys2Proof/Laws/Memory.lean ====
section
/-! SUPPORT. The laws of memory: a read after a write, and the canonical form kept by every operation. -/

namespace Sys2Proof.Machine

@[simp] theorem Memory.read_erase (m : Memory) (a b : Nat) :
    Memory.read (Memory.erase m a) b = if a = b then Memory.unlisted else Memory.read m b := by
  induction m with
  | nil => simp [Memory.erase, Memory.read]
  | cons c r ih =>
    unfold Memory.erase at ih ⊢
    by_cases hc : c.1 = a
    · by_cases hb : a = b <;> simp_all [Memory.read]
    · by_cases hb : c.1 = b
      · have : a ≠ b := fun h => hc (hb.trans h.symm)
        simp_all [Memory.read]
      · simp_all [Memory.read]

theorem Memory.read_insert (m : Memory) (a b : Nat) (v : Byte) (h : ∀ c ∈ m, c.1 ≠ a) :
    Memory.read (Memory.insert m a v) b = if a = b then v else Memory.read m b := by
  induction m with
  | nil => simp [Memory.insert, Memory.read]
  | cons c r ih =>
    have hc := h c (by simp)
    have ih := ih fun d hd => h d (by simp [hd])
    by_cases hlt : a < c.1
    · simp [Memory.insert, hlt, Memory.read]
    · by_cases hb : c.1 = b
      · subst hb
        simp [Memory.insert, hlt, Memory.read, Ne.symm hc]
      · simp [Memory.insert, hlt, Memory.read, hb, ih]

theorem Memory.erase_ne (m : Memory) (a : Nat) : ∀ c ∈ Memory.erase m a, c.1 ≠ a := by
  simp [Memory.erase, List.mem_filter]

/-- A read after a write, whatever the list: the byte written, or what stood there. -/
theorem Memory.read_write (m : Memory) (a b : Nat) (v : Byte) :
    Memory.read (Memory.write m a v) b = if a = b then v else Memory.read m b := by
  unfold Memory.write
  split
  · next h => subst h; exact Memory.read_erase m a b
  · rw [Memory.read_insert _ _ _ _ (Memory.erase_ne m a), Memory.read_erase]
    split <;> rfl

theorem Memory.mem_insert {m : Memory} {a : Nat} {v : Byte} {c : Host.Cell} :
    c ∈ Memory.insert m a v ↔ c = (a, v) ∨ c ∈ m := by
  induction m with
  | nil => simp [Memory.insert]
  | cons d r ih => by_cases h : a < d.1 <;> simp [Memory.insert, h, ih]; tauto

theorem Memory.erase_wf {m : Memory} (h : Memory.wf m) (a : Nat) : Memory.wf (Memory.erase m a) :=
  ⟨h.1.filter _, fun c hc => h.2 c (List.mem_filter.mp hc).1⟩

theorem Memory.insert_wf {m : Memory} (h : Memory.wf m) {a : Nat} {v : Byte} (ha : a < 256) (hv : v ≠ Memory.unlisted)
    (hne : ∀ c ∈ m, c.1 ≠ a) : Memory.wf (Memory.insert m a v) := by
  refine ⟨?_, fun c hc => ?_⟩
  · have h := h.1
    induction m with
    | nil => simp [Memory.insert]
    | cons d r ih =>
      rw [List.pairwise_cons] at h
      by_cases hlt : a < d.1
      · simp only [Memory.insert, hlt, if_true, List.pairwise_cons, List.mem_cons]
        refine ⟨?_, h⟩
        rintro c (rfl | hc)
        · exact hlt
        · exact hlt.trans (h.1 c hc)
      · simp only [Memory.insert, hlt, if_false, List.pairwise_cons]
        refine ⟨fun c hc => ?_, ih ⟨h.2, fun c hc => (‹Memory.wf _›).2 c (by simp [hc])⟩
          (fun c hc => hne c (by simp [hc])) h.2⟩
        rcases Memory.mem_insert.mp hc with rfl | hc
        · exact lt_of_le_of_ne (not_lt.mp hlt) (hne d (by simp))
        · exact h.1 c hc
  · rcases Memory.mem_insert.mp hc with rfl | hc
    · exact ⟨ha, hv⟩
    · exact h.2 c hc

/-- A write keeps the canonical form. -/
theorem Memory.write_wf {m : Memory} (h : Memory.wf m) {a : Nat} (ha : a < 256) (v : Byte) :
    Memory.wf (Memory.write m a v) := by
  unfold Memory.write
  split
  · exact Memory.erase_wf h a
  · next hv => exact Memory.insert_wf (Memory.erase_wf h a) ha hv (Memory.erase_ne m a)

/-- The memory of the reset state has the canonical form. -/
theorem State.resetWith_mem_wf (c : Config) : Memory.wf (State.resetWith c).mem :=
  ⟨List.Pairwise.nil, fun _ h => absurd h List.not_mem_nil⟩

@[simp] theorem State.store_load (s : State) (a b v : Byte) :
    (s.store a v).load b = if a = b then v else s.load b := by
  simp [State.load, Memory.read_write, ← BitVec.toNat_inj]

@[simp] theorem State.store_memRead (s : State) (a v : Byte) (b : Nat) :
    (s.store a v).memRead b = if a.toNat = b then some v else s.memRead b := by
  have := a.isLt
  simp only [State.memRead, State.store_mem, Memory.read_write]
  split <;> split <;> simp_all
  omega

theorem State.store_mem_wf {s : State} (h : Memory.wf s.mem) (a v : Byte) : Memory.wf (s.store a v).mem :=
  Memory.write_wf h a.isLt v

theorem State.pushThrough_mem_wf {s : State} (h : Memory.wf s.mem) (r : Reg) (v : Byte) :
    Memory.wf (s.pushThrough r v).mem :=
  State.store_mem_wf (s := s.setReg r (s.reg r - 1#8)) h _ _

/-- A host write keeps the canonical form. -/
theorem State.hostWrite_mem_wf {s t : State} (h : Memory.wf s.mem) {a : Nat} {v : Byte}
    (ht : s.hostWrite a v = some t) : Memory.wf t.mem := by
  simp only [State.hostWrite] at ht
  split at ht
  · cases ht; exact Memory.write_wf h (by omega) v
  · cases ht

theorem State.placeBytes_mem_wf {s : State} (h : Memory.wf s.mem) (a : Nat) (bs : List Byte) :
    Memory.wf (s.placeBytes a bs).mem := by
  induction bs generalizing s a with
  | nil => exact h
  | cons v r ih =>
    apply ih
    cases ht : s.hostWrite a v with
    | none => simpa using h
    | some t => simpa using State.hostWrite_mem_wf h ht

/-- What a push through register `r` does: the pointer moves down, and the byte stands at its new value. -/
@[simp] theorem State.pushThrough_reg (s : State) (r q : Reg) (v : Byte) :
    (s.pushThrough r v).reg q = if r = q then s.reg r - 1#8 else s.reg q := by
  simp [State.pushThrough]

@[simp] theorem State.pushThrough_load (s : State) (r : Reg) (v b : Byte) :
    (s.pushThrough r v).load b = if s.reg r - 1#8 = b then v else s.load b := by
  simp [State.pushThrough]

@[simp] theorem State.pushThrough_memRead (s : State) (r : Reg) (v : Byte) (b : Nat) :
    (s.pushThrough r v).memRead b = if (s.reg r - 1#8).toNat = b then some v else s.memRead b := by
  simp [State.pushThrough]

@[simp] theorem State.pushThrough_mem (s : State) (r : Reg) (v : Byte) :
    (s.pushThrough r v).mem = Memory.write s.mem (s.reg r - 1#8).toNat v := by
  simp [State.pushThrough]

@[simp] theorem State.pushThrough_pc (s : State) (r : Reg) (v : Byte) : (s.pushThrough r v).pc = s.pc := rfl
@[simp] theorem State.pushThrough_fl (s : State) (r : Reg) (v : Byte) : (s.pushThrough r v).fl = s.fl := rfl
@[simp] theorem State.pushThrough_run (s : State) (r : Reg) (v : Byte) : (s.pushThrough r v).run = s.run := rfl
@[simp] theorem State.pushThrough_fault (s : State) (r : Reg) (v : Byte) : (s.pushThrough r v).fault = s.fault := rfl
@[simp] theorem State.pushThrough_out (s : State) (r : Reg) (v : Byte) : (s.pushThrough r v).out = s.out := rfl
@[simp] theorem State.pushThrough_diag (s : State) (r : Reg) (v : Byte) : (s.pushThrough r v).diag = s.diag := rfl
@[simp] theorem State.pushThrough_config (s : State) (r : Reg) (v : Byte) : (s.pushThrough r v).config = s.config := rfl

end Sys2Proof.Machine
end

