-- ==== Sys2Proof/Laws/Operands.lean ====
section
/-! SUPPORT. What the operand forms can do: one lemma per shared operation. -/

namespace Sys2Proof.Machine

/-- The operand byte of a register names that register. -/
@[simp] theorem reg_regByte (r : Reg) : reg (regByte r) = some r := by
  revert r; decide

/-- An operand byte names a register exactly when it is that register's byte. -/
theorem reg_eq_some {o : Byte} {a : Reg} : reg o = some a ↔ o = regByte a := by
  constructor
  · intro h
    unfold reg at h
    split at h
    · cases h
      apply BitVec.eq_of_toNat_eq
      simp [regByte]
    · cases h
  · rintro rfl; exact reg_regByte a

/-- An operand byte names no register exactly when it is 8 to 255. -/
theorem reg_eq_none {o : Byte} : reg o = none ↔ 7 < o.toNat := by
  unfold reg
  split <;> simp <;> omega

theorem legalReg_eq_false {o : Byte} : legalReg o = false ↔ reg o = none := by
  rw [reg_eq_none]
  simp [legalReg]

theorem legalReg_eq_true {o : Byte} : legalReg o = true ↔ ∃ a, reg o = some a := by
  rw [← Bool.not_eq_false, legalReg_eq_false]
  exact Option.ne_none_iff_exists'

@[simp] theorem withReg_regByte (a : Reg) (s : State) (k : Reg → State) :
    withReg (regByte a) s k = .next (k a) := by simp [withReg]

theorem withReg_bad {o : Byte} (h : reg o = none) (s : State) (k : Reg → State) :
    withReg o s k = .next (s.raise (.registerError o)) := by simp [withReg, h]

@[simp] theorem withRegs_regByte (a b : Reg) (s : State) (k : Reg → Reg → State) :
    withRegs (regByte a) (regByte b) s k = .next (k a b) := by simp [withRegs]

theorem withRegs_bad_first {o1 : Byte} (h : reg o1 = none) (o2 : Byte) (s : State) (k : Reg → Reg → State) :
    withRegs o1 o2 s k = .next (s.raise (.registerError o1)) := by simp [withRegs, h]

theorem withRegs_bad_second {o2 : Byte} (h : reg o2 = none) (a : Reg) (s : State) (k : Reg → Reg → State) :
    withRegs (regByte a) o2 s k = .next (s.raise (.registerError o2)) := by simp [withRegs, withReg, h]

/-- Everything one register operand can lead to. -/
theorem withReg_next {o : Byte} {s t : State} {k : Reg → State} (h : withReg o s k = .next t) :
    (∃ a, o = regByte a ∧ t = k a) ∨ (reg o = none ∧ t = s.raise (.registerError o)) := by
  unfold withReg at h
  split at h
  · next a ha => exact .inl ⟨a, reg_eq_some.mp ha, by cases h; rfl⟩
  · next ha => exact .inr ⟨ha, by cases h; rfl⟩

/-- Everything two register operands can lead to. -/
theorem withRegs_next {o1 o2 : Byte} {s t : State} {k : Reg → Reg → State} (h : withRegs o1 o2 s k = .next t) :
    (∃ a b, o1 = regByte a ∧ o2 = regByte b ∧ t = k a b) ∨
    (reg o1 = none ∧ t = s.raise (.registerError o1)) ∨
    (∃ a, o1 = regByte a ∧ reg o2 = none ∧ t = s.raise (.registerError o2)) := by
  unfold withRegs at h
  split at h
  · next a ha =>
    rcases withReg_next h with ⟨b, hb, ht⟩ | ⟨hb, ht⟩
    · exact .inl ⟨a, b, reg_eq_some.mp ha, hb, ht⟩
    · exact .inr (.inr ⟨a, reg_eq_some.mp ha, hb, ht⟩)
  · next ha => exact .inr (.inl ⟨ha, by cases h; rfl⟩)

/-- What a two-operand ALU operation does on legal operands. -/
@[simp] theorem binary_regByte (f : Byte → Byte → Byte) (a b : Reg) (s : State) :
    binary f (regByte a) (regByte b) s = .next ((s.setReg a (f (s.reg a) (s.reg b))).advance 3) := by
  simp [binary]

theorem withReg_answers (o : Byte) (s : State) (k : Reg → State) : ∃ t, withReg o s k = .next t := by
  unfold withReg; split <;> exact ⟨_, rfl⟩

theorem withRegs_answers (o1 o2 : Byte) (s : State) (k : Reg → Reg → State) : ∃ t, withRegs o1 o2 s k = .next t := by
  unfold withRegs; split
  · exact withReg_answers _ _ _
  · exact ⟨_, rfl⟩

end Sys2Proof.Machine
end

