-- ==== Sys2Proof/Laws/PerInstr.lean ====
section
/-! SUPPORT. Statements made for every instruction as written: family EncodedLength. -/

namespace Sys2Proof.Laws.EncodedLength

/-- The encoding has as many bytes as R56 gives the instruction, under any map. -/
def Statement (i : Instr) : Prop := ∀ m : OpcodeMap, (encode m i).length = i.length

theorem hlt : Statement .hlt := fun _ => rfl
theorem ldi (o1 imm : Byte) : Statement (.ldi o1 imm) := fun _ => rfl
theorem prn (o1 : Byte) : Statement (.prn o1) := fun _ => rfl
theorem push (o1 : Byte) : Statement (.push o1) := fun _ => rfl
theorem pop (o1 : Byte) : Statement (.pop o1) := fun _ => rfl
theorem call (o1 : Byte) : Statement (.call o1) := fun _ => rfl
theorem ret : Statement .ret := fun _ => rfl
theorem cmp (o1 o2 : Byte) : Statement (.cmp o1 o2) := fun _ => rfl
theorem jmp (addr : Byte) : Statement (.jmp addr) := fun _ => rfl
theorem jeq (o1 : Byte) : Statement (.jeq o1) := fun _ => rfl
theorem jne (o1 : Byte) : Statement (.jne o1) := fun _ => rfl
theorem and (o1 o2 : Byte) : Statement (.and o1 o2) := fun _ => rfl
theorem or (o1 o2 : Byte) : Statement (.or o1 o2) := fun _ => rfl
theorem xor (o1 o2 : Byte) : Statement (.xor o1 o2) := fun _ => rfl
theorem shl (o1 o2 : Byte) : Statement (.shl o1 o2) := fun _ => rfl
theorem shr (o1 o2 : Byte) : Statement (.shr o1 o2) := fun _ => rfl
theorem mod (o1 o2 : Byte) : Statement (.mod o1 o2) := fun _ => rfl
theorem add (o1 o2 : Byte) : Statement (.add o1 o2) := fun _ => rfl
theorem mul (o1 o2 : Byte) : Statement (.mul o1 o2) := fun _ => rfl
theorem not (o1 : Byte) : Statement (.not o1) := fun _ => rfl

end Sys2Proof.Laws.EncodedLength
end

