-- ==== Sys2Proof/Laws/Step.lean ====
section
/-! SUPPORT. What fetching and a step can do. -/

namespace Sys2Proof.Machine

/-- A byte of the code exists exactly where its address is 0 to 255. -/
theorem State.codeByte_none {s : State} {k : Nat} : s.codeByte k = none ↔ 255 < s.pc.toNat + k := by
  simp [State.codeByte, State.memRead]

/-- Everything a step that answers a next state can be: the machine runs, and it executes the fetched instruction or
takes the fault of a failed fetch. -/
theorem step_next {s t : State} (h : step s = .next t) :
    s.run = true ∧ ((∃ i, s.fetch = .ok i ∧ exec i s = .next t) ∨
      ∃ e, s.fetch = .error e ∧ t = s.raise (s.rejectCause e)) := by
  unfold step at h
  split at h
  · next hr =>
    refine ⟨hr, ?_⟩
    split at h
    · next i hi => exact .inl ⟨i, hi, h⟩
    · next e he => exact .inr ⟨e, he, by cases h; rfl⟩
  · cases h

theorem step_of_fetch {s : State} {i : Instr} (hr : s.run = true) (hf : s.fetch = .ok i) : step s = exec i s := by
  simp [step, hr, hf]

theorem step_of_reject {s : State} {e : Reject} (hr : s.run = true) (hf : s.fetch = .error e) :
    step s = .next (s.raise (s.rejectCause e)) := by
  simp [step, hr, hf]

/-- An instruction read: its mnemonic is found under its byte, and its bytes are those read. -/
theorem decodeFrom_ok {m : OpcodeMap} {rd : Nat → Option Byte} {i : Instr} (h : decodeFrom m rd = .ok i) :
    m.lookup (m.opcodeOf i.mnemonic) = some i.mnemonic ∧ ∀ k, k < i.length → rd k = (encode m i)[k]? := by
  unfold decodeFrom at h
  split at h
  · cases h
  next op h0 =>
  split at h
  · cases h
  next k hl =>
  have hop := OpcodeMap.lookup_some hl
  have hb := k.form_builds
  split at h
  · next j hf =>
    rw [hf] at hb
    cases h
    refine ⟨by rw [hb.1, hop, hl], fun n hn => ?_⟩
    rw [Instr.length_eq, hb.2] at hn
    obtain rfl : n = 0 := by simpa using hn
    simp [encode, hb.1, hop, h0]
  · next mk hf =>
    rw [hf] at hb
    split at h
    · cases h
    next o1 h1 =>
    cases h
    refine ⟨by rw [(hb o1).1, hop, hl], fun n hn => ?_⟩
    rw [Instr.length_eq, (hb o1).2] at hn
    simp only [encode, (hb o1).1, (hb o1).2, hop]
    match n, hn with
    | 0, _ => simp [h0]
    | 1, _ => simp [h1]
  · next mk hf =>
    rw [hf] at hb
    split at h
    · cases h
    next o1 h1 =>
    split at h
    · cases h
    next o2 h2 =>
    cases h
    refine ⟨by rw [(hb o1 o2).1, hop, hl], fun n hn => ?_⟩
    rw [Instr.length_eq, (hb o1 o2).2] at hn
    simp only [encode, (hb o1 o2).1, (hb o1 o2).2, hop]
    match n, hn with
    | 0, _ => simp [h0]
    | 1, _ => simp [h1]
    | 2, _ => simp [h2]

/-- An illegal opcode read: it is the first byte, and no mnemonic has it. -/
theorem decodeFrom_illegal {m : OpcodeMap} {rd : Nat → Option Byte} {op : Byte}
    (h : decodeFrom m rd = .error (.illegalOpcode op)) : rd 0 = some op ∧ m.lookup op = none := by
  unfold decodeFrom at h
  split at h
  · cases h
  next op' h0 =>
  split at h
  · next hl => cases h; exact ⟨h0, hl⟩
  · split at h
    · cases h
    · split at h <;> cases h
    · split at h
      · cases h
      · split at h <;> cases h

/-- A byte missing: it is the first of the instruction's bytes that does not exist. -/
theorem decodeFrom_missing {m : OpcodeMap} {rd : Nat → Option Byte} {k : Nat}
    (h : decodeFrom m rd = .error (.missingByte k)) : rd k = none ∧ ∀ j, j < k → rd j ≠ none := by
  unfold decodeFrom at h
  split at h
  · next h0 => cases h; exact ⟨h0, fun _ hj => absurd hj (Nat.not_lt_zero _)⟩
  next op h0 =>
  have z : rd 0 ≠ none := by simp [h0]
  split at h
  · cases h
  split at h
  · cases h
  · split at h
    · next h1 => cases h; exact ⟨h1, fun j hj => by obtain rfl : j = 0 := by omega
                                                    exact z⟩
    · cases h
  · split at h
    · next h1 => cases h; exact ⟨h1, fun j hj => by obtain rfl : j = 0 := by omega
                                                    exact z⟩
    · next o1 h1 =>
      split at h
      · next h2 =>
        cases h
        refine ⟨h2, fun j hj => ?_⟩
        match j, hj with
        | 0, _ => exact z
        | 1, _ => simp [h1]
      · cases h

/-- The opcode fetched was not missing when an operand byte is. -/
theorem State.fetch_missing {s : State} {k : Nat} (h : s.fetch = .error (.missingByte k)) :
    255 < s.pc.toNat + k ∧ ∀ j, j < k → s.pc.toNat + j ≤ 255 := by
  obtain ⟨hk, hj⟩ := decodeFrom_missing h
  exact ⟨State.codeByte_none.mp hk, fun j hjk => not_lt.mp fun hc => hj j hjk (State.codeByte_none.mpr hc)⟩

/-- An instruction whose bytes can be read under a map that finds its mnemonic is the one decoded. -/
theorem decodeFrom_of_bytes {m : OpcodeMap} {rd : Nat → Option Byte} {i : Instr}
    (hl : m.lookup (m.opcodeOf i.mnemonic) = some i.mnemonic)
    (h : ∀ k, k < i.length → rd k = (encode m i)[k]?) : decodeFrom m rd = .ok i := by
  have h0 := h 0 (by cases i <;> simp [Instr.length])
  have h1 := h 1
  have h2 := h 2
  cases i <;> simp_all [encode, decodeFrom, Instr.mnemonic, Mnemonic.form, Instr.operandBytes, Instr.length]

/-- What an opcode and too few bytes below the top of memory give. -/
theorem State.fetch_short {s : State} {i : Instr} (hm : s.config.opcodes.legal = true)
    (h0 : s.codeByte 0 = some (s.config.opcodes.opcodeOf i.mnemonic)) (hlen : 256 < s.pc.toNat + i.length) :
    ∃ k, s.fetch = .error (.missingByte k) ∧ s.pc.toNat + k = 256 := by
  have hpc : ¬ 255 < s.pc.toNat + 0 := fun h => by rw [State.codeByte_none.mpr h] at h0; cases h0
  have hsome : ∀ k, s.pc.toNat + k ≤ 255 → ∃ o, s.codeByte k = some o := fun k hk =>
    Option.ne_none_iff_exists'.mp fun h => by rw [State.codeByte_none] at h; omega
  have hl := OpcodeMap.lookup_opcodeOf hm i.mnemonic
  have hcase : s.pc.toNat = 255 ∨ s.pc.toNat = 254 ∧ i.length = 3 := by
    cases i <;> simp [Instr.length] at hlen ⊢ <;> omega
  rcases hcase with hp | ⟨hp, h3⟩
  · have h1 : s.codeByte 1 = none := State.codeByte_none.mpr (by omega)
    refine ⟨1, ?_, by omega⟩
    cases i <;> simp [Instr.length] at hlen <;>
      first
      | omega
      | (rw [Instr.mnemonic] at h0 hl; simp [State.fetch, decodeFrom, h0, hl, h1, Mnemonic.form])
  · obtain ⟨o, h1⟩ := hsome 1 (by omega)
    have h2 : s.codeByte 2 = none := State.codeByte_none.mpr (by omega)
    refine ⟨2, ?_, by omega⟩
    cases i <;> simp [Instr.length] at h3 <;>
      (rw [Instr.mnemonic] at h0 hl; simp [State.fetch, decodeFrom, h0, hl, h1, h2, Mnemonic.form])

/-- Everything an instruction can do: take RegisterError on an operand byte that is 8 to 255, or keep `FAULT`. -/
theorem exec_fault {i : Instr} {s t : State} (h : exec i s = .next t) :
    (∃ o, reg o = none ∧ o ∈ i.regOperands ∧ t = s.raise (.registerError o)) ∨ t.fault = s.fault := by
  cases i <;>
    simp only [exec, execLdi, execPrn, execPush, execPop, execCall, execCmp, execJeq, execJne, execAnd, execOr, execXor,
      execShl, execShr, execMod, execAdd, execMul, execNot, execHlt, execRet, execJmp, binary] at h
  case hlt => cases h; exact .inr rfl
  case ret => cases h; exact .inr rfl
  case jmp => cases h; exact .inr rfl
  case ldi | prn | push | pop | call | jeq | jne | not =>
    rcases withReg_next h with ⟨a, rfl, rfl⟩ | ⟨ho, rfl⟩
    · right; first | rfl | (split <;> rfl)
    · exact .inl ⟨_, ho, by simp [Instr.regOperands], rfl⟩
  all_goals
    rcases withRegs_next h with ⟨a, b, rfl, rfl, rfl⟩ | ⟨ho, rfl⟩ | ⟨a, rfl, ho, rfl⟩
    · right; first | rfl | (split <;> rfl)
    · exact .inl ⟨_, ho, by simp [Instr.regOperands], rfl⟩
    · exact .inl ⟨_, ho, by simp [Instr.regOperands], rfl⟩

end Sys2Proof.Machine
end

