-- ==== Sys2Proof/Machine/Listing.lean ====
section
/-! DEFINITION. The spec's listing notation (30_encoding.md R68, R69): how an instruction is written. The machine does not
use it. -/

namespace Sys2Proof

/-- A register operand as the listings write it. -/
def regText (o : Byte) : String := "R" ++ toString o.toNat

/-- Two operands as the listings write them, the destination first. -/
def pairText (first second : String) : String := first ++ ", " ++ second

/-- An instruction in the notation of R69: registers `R0` to `R7`, immediates and addresses in decimal. -/
def Instr.listing : Instr → String
  | .hlt => "HLT"
  | .ldi o1 imm => "LDI " ++ pairText (regText o1) (toString imm.toNat)
  | .prn o1 => "PRN " ++ regText o1
  | .push o1 => "PUSH " ++ regText o1
  | .pop o1 => "POP " ++ regText o1
  | .call o1 => "CALL " ++ regText o1
  | .ret => "RET"
  | .cmp o1 o2 => "CMP " ++ pairText (regText o1) (regText o2)
  | .jmp addr => "JMP " ++ toString addr.toNat
  | .jeq o1 => "JEQ " ++ regText o1
  | .jne o1 => "JNE " ++ regText o1
  | .and o1 o2 => "AND " ++ pairText (regText o1) (regText o2)
  | .or o1 o2 => "OR " ++ pairText (regText o1) (regText o2)
  | .xor o1 o2 => "XOR " ++ pairText (regText o1) (regText o2)
  | .shl o1 o2 => "SHL " ++ pairText (regText o1) (regText o2)
  | .shr o1 o2 => "SHR " ++ pairText (regText o1) (regText o2)
  | .mod o1 o2 => "MOD " ++ pairText (regText o1) (regText o2)
  | .add o1 o2 => "ADD " ++ pairText (regText o1) (regText o2)
  | .mul o1 o2 => "MUL " ++ pairText (regText o1) (regText o2)
  | .not o1 => "NOT " ++ regText o1

end Sys2Proof
end

