-- ==== Sys2Proof/Tests/Slice0.lean ====
section
/-! SUPPORT. The model's own tests. Expected results are those of 95_test_vectors.md (the table and row named in each
comment) or of a rule's own example. After them, a witness for the hypotheses of each obligation. -/

namespace Sys2Proof.Tests

open Sys2Proof.Machine

/-- `s` with `bytes` from address `pc` up, about to run what stands at `pc`. -/
def startAt (pc : Addr) (bytes : List Byte) (s : State) : State := (s.setPc pc).placeBytes pc.toNat bytes

/-- The step answers a next state with the property `p`. -/
def after (s : State) (p : State → Bool) : Bool :=
  match step s with
  | .next t => p t
  | _ => false

/-- The state after reset. -/
abbrev fresh : State := State.reset

/-- The machine with `CALL_SP_INDEX = 6` after reset. -/
def freshSix : State := State.resetWith { defaultConfig with callSp := .six }

/-- A bad register operand raises RegisterError and moves nothing: the rows with a bad index of V-LDI, V-PUSH, V-CALL,
V-FAULT. -/
def raisesRegister (o : Byte) (s : State) : Bool := after s fun t => t == s.raise (.registerError o)

/-! WellFormed: an ill-formed term for each check -/

theorem test_wellFormed_refuses_first : (Instr.add 8 0).wellFormed = false := by decide
theorem test_wellFormed_refuses_second : (Instr.add 0 255).wellFormed = false := by decide
theorem test_wellFormed_accepts : (Instr.add 7 0).wellFormed = true ∧ (Instr.ldi 7 255).wellFormed = true := by decide
theorem test_wellFormed_any_address : (Instr.jmp 0xC8).wellFormed = true := by decide
theorem test_legal_refuses_double : ({ defaultOpcodes with ldi := 0x01 } : OpcodeMap).legal = false := by decide
theorem test_legal_refuses_ff : ({ defaultOpcodes with hlt := 0xFF } : OpcodeMap).legal = false := by decide
theorem test_legal_accepts_default : defaultOpcodes.legal = true := by decide

/-! Decode: one word for each constructor, written out from R54 and R57 -/

theorem test_decode_hlt : decode defaultOpcodes [0b00000001] = .ok .hlt := by decide
theorem test_decode_ldi : decode defaultOpcodes [0b10000010, 3, 0xFF] = .ok (.ldi 3 0xFF) := by decide
theorem test_decode_prn : decode defaultOpcodes [0b01000111, 2] = .ok (.prn 2) := by decide
theorem test_decode_push : decode defaultOpcodes [0b01000101, 7] = .ok (.push 7) := by decide
theorem test_decode_pop : decode defaultOpcodes [0b01000110, 1] = .ok (.pop 1) := by decide
theorem test_decode_call : decode defaultOpcodes [0b01010000, 1] = .ok (.call 1) := by decide
theorem test_decode_ret : decode defaultOpcodes [0b00010001] = .ok .ret := by decide
theorem test_decode_cmp : decode defaultOpcodes [0b10100111, 0, 1] = .ok (.cmp 0 1) := by decide
theorem test_decode_jmp : decode defaultOpcodes [0b01010100, 0x15] = .ok (.jmp 0x15) := by decide
theorem test_decode_jeq : decode defaultOpcodes [0b01010101, 2] = .ok (.jeq 2) := by decide
theorem test_decode_jne : decode defaultOpcodes [0b01010110, 3] = .ok (.jne 3) := by decide
theorem test_decode_and : decode defaultOpcodes [0b10101000, 0, 1] = .ok (.and 0 1) := by decide
theorem test_decode_or : decode defaultOpcodes [0b10101010, 2, 1] = .ok (.or 2 1) := by decide
theorem test_decode_xor : decode defaultOpcodes [0b10101011, 3, 1] = .ok (.xor 3 1) := by decide
theorem test_decode_shl : decode defaultOpcodes [0b10101100, 0, 4] = .ok (.shl 0 4) := by decide
theorem test_decode_shr : decode defaultOpcodes [0b10101101, 2, 4] = .ok (.shr 2 4) := by decide
theorem test_decode_mod : decode defaultOpcodes [0b10100100, 0, 1] = .ok (.mod 0 1) := by decide
theorem test_decode_add : decode defaultOpcodes [0b10100000, 4, 5] = .ok (.add 4 5) := by decide
theorem test_decode_mul : decode defaultOpcodes [0b10100010, 6, 7] = .ok (.mul 6 7) := by decide
theorem test_decode_not : decode defaultOpcodes [0b01101001, 1] = .ok (.not 1) := by decide

/-- V-FAULT rows 2 to 4: zero, LS-8's JGT byte and a byte whose top bits say two operands are illegal. -/
theorem test_decode_illegal :
    [0x00, 0x57, 0x80].all (fun op : Byte => decode defaultOpcodes [op, 0, 0] == .error (.illegalOpcode op)) = true := by
  decide
/-- A byte short. -/
theorem test_decode_short : decode defaultOpcodes [0x82, 9] = .error (.missingByte 2) := by decide
/-- The table's numbering: the first byte in bits 7 to 0. -/
theorem test_tableWord : decodeTableWord 24 0x0102A0 = some (.add 2 1) ∧ decodeTableWord 8 0x0102A0 = some (.add 0 0) := by
  decide
theorem test_tableWord_refuses : decodeTableWord 24 0x0108A0 = none ∧ decodeTableWord 8 0xFF = none := by decide
theorem test_withFetchWord : after (fresh.withFetchWord 24 0x080082) (fun t => t.reg 0 == 8 && t.pc == 3) = true := by
  decide

/-! One step, system and move -/

/-- V-HLT row 1. -/
theorem test_hlt :
    after (startAt 0x0B [0x01] (fresh.setReg 0 0x48)) (fun t => !t.run && t.fault == none && t.pc == 0x0B) = true := by
  decide
/-- V-HLT row 2. -/
theorem test_hlt_top : after (startAt 0xFF [0x01] fresh) (fun t => !t.run && t.fault == none && t.pc == 0xFF) = true := by
  decide
/-- V-TOP row 1. -/
theorem test_ldi_top : after (startAt 0xFD [0x82, 1, 9] fresh) (fun t => t.reg 1 == 9 && t.pc == 256 && t.run) = true := by
  decide
/-- V-LDI row 5. -/
theorem test_ldi_bad : raisesRegister 8 (startAt 0 [0x82, 8, 1] fresh) = true := by decide
/-- V-LDI row 7. -/
theorem test_prn : after (startAt 0 [0x47, 3] (fresh.setReg 3 0xFF)) (fun t => t.out == [255] && t.pc == 2) = true := by
  decide
/-- V-LDI row 9. -/
theorem test_prn_bad : raisesRegister 9 (startAt 0 [0x47, 9] fresh) = true := by decide

/-! Stack -/

/-- V-PUSH row 2. -/
theorem test_push_wraps :
    after (startAt 6 [0x45, 0] (fresh.setReg 0 7)) (fun t => t.reg 7 == 0xFF && t.load 0xFF == 7 && t.pc == 8) = true := by
  decide
/-- V-PUSH row 4. -/
theorem test_push_r7 :
    after (startAt 0 [0x45, 7] (fresh.setReg 7 0x10)) (fun t => t.load 0x0F == 0x10 && t.reg 7 == 0x0F) = true := by decide
/-- V-PUSH row 3. -/
theorem test_pop_wraps :
    after (startAt 0x0A [0x46, 2] ((fresh.setReg 7 0xFF).store 0xFF 7))
      (fun t => t.reg 2 == 7 && t.reg 7 == 0 && t.pc == 0x0C && t.load 0xFF == 7) = true := by decide
/-- V-PUSH row 5. -/
theorem test_pop_r7 :
    after (startAt 0 [0x46, 7] ((fresh.setReg 7 0xF0).store 0xF0 0x20)) (fun t => t.reg 7 == 0x21) = true := by decide

/-! Control transfer -/

/-- V-CALL row 4: the target is read after the decrement. -/
theorem test_call_r7 :
    after (startAt 4 [0x50, 7] (fresh.setReg 7 0x10))
      (fun t => t.reg 7 == 0x0F && t.load 0x0F == 6 && t.pc == 0x0F) = true := by decide
/-- V-CALL row 3: `CALL_SP_INDEX = 6`. -/
theorem test_call_six :
    after (startAt 8 [0x50, 1] ((freshSix.setReg 1 0x0F).setReg 7 0xFF))
      (fun t => t.reg 6 == 0xFF && t.load 0xFF == 0x0A && t.pc == 0x0F && t.reg 7 == 0xFF) = true := by decide
/-- V-CALL row 2. -/
theorem test_ret :
    after (startAt 0x14 [0x11] ((fresh.setReg 7 0xFE).store 0xFE 0x0A))
      (fun t => t.pc == 0x0A && t.reg 7 == 0xFF && t.load 0xFE == 0x0A) = true := by decide
/-- V-CALL row 8. -/
theorem test_ret_top :
    after (startAt 0xFF [0x11] ((fresh.setReg 7 0x80).store 0x80 0x33)) (fun t => t.pc == 0x33 && t.reg 7 == 0x81) = true := by
  decide
/-- V-CALL row 11. -/
theorem test_jmp : after (startAt 0 [0x54, 0xC8] fresh) (fun t => t.pc == 0xC8 && t.run) = true := by decide
/-- V-TOP row 7. -/
theorem test_jmp_top :
    after (startAt 0xFF [0x54] fresh) (fun t => t.fault == some ⟨.addressError 256, 0xFF⟩ && !t.run && t.pc == 0xFF) = true := by
  decide
/-- V-CMPJ, last row: before any CMP JEQ is not taken and JNE is. -/
theorem test_jeq_first : after (startAt 0 [0x55, 2] (fresh.setReg 2 0x40)) (fun t => t.pc == 2) = true := by decide
theorem test_jne_first : after (startAt 0 [0x56, 2] (fresh.setReg 2 0x40)) (fun t => t.pc == 0x40) = true := by decide
/-- V-CMPJ, row 3. -/
theorem test_jeq_equal :
    after (startAt 0 [0x55, 2] ((fresh.setReg 2 0x40).setFl 0b001)) (fun t => t.pc == 0x40) = true := by decide
/-- V-CMPJ, last paragraph: a bad index faults although the jump is not taken. -/
theorem test_jne_bad : raisesRegister 9 (startAt 0 [0x56, 9] (fresh.setFl 0b001)) = true := by decide

/-! The ALU: rows of V-ALU, V-NOT, V-SAME and V-CMPJ, with `x[0] = A`, `x[1] = B` -/

/-- The step `op 00 01` at 0 with `x[0] = u`, `x[1] = v` leaves `x[0] = w`, `x[1] = v` and `pc = 3`. -/
def alu (op u v w : Byte) : Bool :=
  after (startAt 0 [op, 0, 1] ((fresh.setReg 0 u).setReg 1 v)) fun t => t.reg 0 == w && t.reg 1 == v && t.pc == 3

theorem test_cmp_unsigned :
    after (startAt 0 [0xA7, 0, 1] ((fresh.setReg 0 0x80).setReg 1 0x7F)) (fun t => t.fl == 0b010 && t.pc == 3) = true := by
  decide
theorem test_cmp_less :
    after (startAt 0 [0xA7, 0, 1] ((fresh.setFl 0b010).setReg 1 5)) (fun t => t.fl == 0b100) = true := by decide
theorem test_add : alu 0xA0 0xC8 0x64 0x2C = true := by decide
theorem test_add_wraps : alu 0xA0 0xFF 0x01 0x00 = true := by decide
theorem test_mul : alu 0xA2 0xFF 0xFF 0x01 = true := by decide
theorem test_mul_source : alu 0xA2 0x08 0x09 0x48 = true := by decide
theorem test_and : alu 0xA8 0xCC 0xAA 0x88 = true := by decide
theorem test_or : alu 0xAA 0xCC 0xAA 0xEE = true := by decide
theorem test_xor : alu 0xAB 0xCC 0xAA 0x66 = true := by decide
theorem test_shl : alu 0xAC 0x81 0x01 0x02 = true := by decide
theorem test_shl_eight : alu 0xAC 0x01 0x08 0x00 = true := by decide
theorem test_shr : alu 0xAD 0x80 0x01 0x40 = true := by decide
theorem test_shr_all : alu 0xAD 0xFF 0xFF 0x00 = true := by decide
theorem test_mod : alu 0xA4 0xFF 0x10 0x0F = true := by decide
/-- The example of R103 and source property S6. -/
theorem test_mod_zero :
    after (startAt 6 [0xA4, 0, 1] (fresh.setReg 0 10))
      (fun t => t.reg 0 == 10 && t.diag == [.divideByZero 6] && t.pc == 9 && t.run && t.fault == none) = true := by decide
theorem test_not : after (startAt 0 [0x69, 0] (fresh.setReg 0 0x0F)) (fun t => t.reg 0 == 0xF0 && t.pc == 2) = true := by
  decide

/-! Faults and the host -/

/-- V-FAULT row 6: the first bad operand decides. -/
theorem test_first_operand_first : raisesRegister 9 (startAt 0 [0xA0, 9, 0x0A] fresh) = true := by decide
/-- V-FAULT row 8: no diagnostic. -/
theorem test_register_before_divide : raisesRegister 8 (startAt 0 [0xA4, 8, 1] fresh) = true := by decide
/-- V-FAULT row 9: the address fault comes before the register check. -/
theorem test_address_before_register :
    after (startAt 0xFE [0x82, 9] fresh) (fun t => t.fault == some ⟨.addressError 256, 0xFE⟩ && t.pc == 0xFE) = true := by
  decide
/-- V-FAULT row 2: a start with no image. -/
theorem test_empty_memory : after fresh (fun t => t == fresh.raise (.illegalInstruction 0)) = true := by decide
/-- R45: the 257th byte is not loaded. -/
theorem test_load_limit : (fresh.hostWrite 256 1).isNone = true ∧ (fresh.hostWrite 255 1).isSome = true := by decide

/-- R32: the three outcomes. -/
theorem test_status :
    fresh.status = .running ∧ fresh.stop.status = .halted ∧
      (fresh.raise (.registerError 9)).status = .faulted ⟨.registerError 9, 0⟩ := by decide
/-- R69: `JMP 21` names an address, `LDI R0, 8` a register and an immediate. -/
theorem test_listing : (Instr.jmp 21).listing = "JMP 21" ∧ (Instr.ldi 0 8).listing = "LDI R0, 8" := by decide

/-! Witnesses for the hypotheses of the obligations -/

/-- The fetch clause `OperandFetchFaults` of every instruction of two or three bytes: its opcode at 255. -/
theorem witness_OperandFetchFaults_255 : ∀ k ∈ Mnemonic.all,
    let s := startAt 255 [defaultOpcodes.opcodeOf k] fresh
    s.run = true ∧ s.config.opcodes.legal = true ∧ s.codeByte 0 = some (s.config.opcodes.opcodeOf k) ∧
      256 < s.pc.toNat + 2 := by decide

/-- The same of three bytes: its opcode at 254. -/
theorem witness_OperandFetchFaults_254 : ∀ k ∈ Mnemonic.all,
    let s := startAt 254 [defaultOpcodes.opcodeOf k, 0] fresh
    s.run = true ∧ s.config.opcodes.legal = true ∧ s.codeByte 0 = some (s.config.opcodes.opcodeOf k) ∧
      256 < s.pc.toNat + 3 := by decide

/-- The register clauses: the smallest and the largest bad operand byte. -/
theorem witness_badOperand : 7 < (8 : Byte).toNat ∧ 7 < (255 : Byte).toNat := by decide

theorem witness_ResetMeetsInvariant : ({ defaultConfig with callSp := .six } : Config).opcodes.legal = true := by decide

theorem witness_StepKeepsInvariant : ∃ t, (startAt 253 [0x82, 0, 8] fresh).Inv ∧ step (startAt 253 [0x82, 0, 8] fresh) = .next t :=
  ⟨_, ⟨by decide, by decide, by decide, by decide, by decide, fun r h => by cases h⟩, rfl⟩

theorem witness_ImageLoadedAfterReset :
    (List.replicate 256 (1 : Byte)).length ≤ 256 ∧ 256 < (List.replicate 257 (1 : Byte)).length :=
  ⟨List.length_replicate.le, by rw [List.length_replicate]; exact Nat.lt_succ_self 256⟩

theorem witness_DecodeEncodeRoundTrip : defaultOpcodes.legal = true ∧ ({ defaultOpcodes with hlt := 0x00 } : OpcodeMap).legal = true := by
  decide

theorem witness_DecodedBytesAreTheEncoding : decode defaultOpcodes [0x82, 0, 8, 1] = .ok (.ldi 0 8) := by decide

theorem witness_IllegalOpcodesFault :
    let s := startAt 255 [0x57] fresh
    s.run = true ∧ s.codeByte 0 = some 0x57 ∧ s.config.opcodes.lookup 0x57 = none := by decide

theorem witness_AllOnesAndEmptyMemoryAreIllegal :
    let s := startAt 7 [0xFF] fresh
    s.run = true ∧ s.config.opcodes.legal = true ∧ s.codeByte 0 = some 0xFF := by decide

theorem witness_StepRunsTheDecodedInstruction :
    let s := startAt 254 [0x47, 0] fresh
    s.run = true ∧ decode s.config.opcodes s.codeBytes = .ok (.prn 0) := by decide

theorem witness_ChecksAreMadeInOrder_address :
    let s := startAt 254 [0x82, 9] fresh
    s.run = true ∧ s.config.opcodes.legal = true ∧
      s.codeByte 0 = some (s.config.opcodes.opcodeOf (Instr.ldi 9 0).mnemonic) ∧
      256 < s.pc.toNat + (Instr.ldi 9 0).length := by decide

theorem witness_ChecksAreMadeInOrder_holds :
    (startAt 253 [0xA0, 9, 10] fresh).Holds (.add 9 10) ∧ (startAt 253 [0xA0, 7, 8] fresh).Holds (.add 7 8) ∧
      (startAt 253 [0xA0, 7, 7] fresh).Holds (.add 7 7) := by
  unfold State.Holds; decide

theorem witness_AddressErrorForms_opcode : (fresh.setPc 256).run = true ∧ (fresh.setPc 256).pc = 256 := by decide

theorem witness_AddressErrorForms_first :
    let s := startAt 255 [0x47] fresh
    s.run = true ∧ s.config.opcodes.legal = true ∧ s.pc = 255 ∧
      s.codeByte 0 = some (s.config.opcodes.opcodeOf (Instr.prn 0).mnemonic) ∧ 2 ≤ (Instr.prn 0).length := by decide

theorem witness_AddressErrorForms_second :
    let s := startAt 254 [0xA0, 0] fresh
    s.run = true ∧ s.config.opcodes.legal = true ∧ s.pc = 254 ∧
      s.codeByte 0 = some (s.config.opcodes.opcodeOf (Instr.add 0 0).mnemonic) ∧ (Instr.add 0 0).length = 3 := by decide

theorem witness_AddressErrorForms_exec : ∃ t, exec .hlt (fresh.raise (.addressError 256)) = .next t ∧
    t.fault = some ⟨.addressError 256, 0⟩ := ⟨_, rfl, rfl⟩

theorem witness_FatalFaultIsPrecise : ∃ t, step fresh = .next t ∧ t.fault ≠ fresh.fault := ⟨_, rfl, by decide⟩

theorem witness_UnsupportedOperationNeverRaised :
    let s := { startAt 0 [0x01] fresh with fault := some ⟨.unsupportedOperation "SUB", 0⟩ }
    ∃ t, step s = .next t ∧ t.fault = some ⟨.unsupportedOperation "SUB", 0⟩ := ⟨_, rfl, rfl⟩

theorem witness_StepExistsExactlyWhileRunning :
    fresh.stop.run = false ∧ fresh.stop.fault = none ∧ (fresh.raise (.illegalInstruction 0)).run = false ∧
    (fresh.raise (.illegalInstruction 0)).fault = some ⟨.illegalInstruction 0, 0⟩ ∧ fresh.run = true := by decide

theorem witness_OnlyHltOrFatalFaultStops : ∃ t, step (startAt 0 [0x01] fresh) = .next t ∧ t.run = false := ⟨_, rfl, rfl⟩

theorem witness_ConfigurationNeverChanges : ∃ t, step (startAt 0 [0x50, 7] freshSix) = .next t := ⟨_, rfl⟩

theorem witness_MeaningIgnoresOpcodeMap : ∃ t, exec (.mod 0 1) fresh = .next t := ⟨_, rfl⟩

theorem witness_OutputGrowsByPrintAlone : ∃ t, step (startAt 0 [0x47, 3] fresh) = .next t ∧ t.out ≠ fresh.out :=
  ⟨_, rfl, by decide⟩

theorem witness_PopEffect : (0 : Reg) ≠ 7 := by decide

theorem witness_PushThenPopRoundTrips :
    let s := startAt 252 [0x45, 0, 0x46, 1] ((fresh.setReg 0 0x2A).setReg 7 9)
    s.run = true ∧ s.config.opcodes.legal = true ∧ (0 : Reg) ≠ 7 ∧ (1 : Reg) ≠ 7 ∧ s.pc.toNat ≤ 252 ∧
    s.codeByte 0 = some s.config.opcodes.push ∧ s.codeByte 1 = some (regByte 0) ∧
    s.codeByte 2 = some s.config.opcodes.pop ∧ s.codeByte 3 = some (regByte 1) ∧
    (s.reg 7 - 1#8).toNat ≠ s.pc.toNat + 2 ∧ (s.reg 7 - 1#8).toNat ≠ s.pc.toNat + 3 := by decide

/-- The clauses of CALL on `CALL_SP_INDEX` and on `a = CALL_SP_INDEX`. -/
theorem witness_CallEffect : fresh.callSp = 7 ∧ freshSix.callSp = 6 := by decide

theorem witness_ReturnEffect : (fresh.setPc 256).run = true ∧ (fresh.setPc 256).pc = 256 := by decide

theorem witness_CallThenReturnRoundTrips :
    let s := (fresh.setPc 253).setReg 1 0x0F
    ∃ t, s.pc.toNat ≤ 253 ∧ exec (.call (regByte 1)) s = .next t ∧ s.config.callSp = .seven ∧
      t.reg 7 = t.reg s.callSp ∧ t.load (t.reg 7) = t.load (t.reg 7) := ⟨_, by decide, rfl, rfl, rfl, rfl⟩

theorem witness_CallThenReturnRoundTrips_six :
    let s := (freshSix.setReg 1 0x0F).setReg 7 0xFF
    ∃ t, s.pc.toNat ≤ 253 ∧ exec (.call (regByte 1)) s = .next t ∧ t.reg 7 = t.reg s.callSp :=
  ⟨_, by decide, rfl, by decide⟩

theorem witness_JumpIfEqualEffect :
    (fresh.setFl 0b001).fl = 0b001#3 ∧ (fresh.setFl 0b010).fl ≠ 0b001#3 ∧ FlLegal (fresh.setFl 0b100).fl := by decide

theorem witness_JumpIfNotEqualEffect : fresh.fl ≠ 0b001#3 ∧ (fresh.setFl 0b001).fl = 0b001#3 := by decide

theorem witness_StraightLineCodeMovesUp :
    let s := startAt 253 [0xA0, 0, 1] fresh
    let i := Instr.add 0 1
    ∃ t, s.run = true ∧ s.fetch = .ok i ∧ step s = .next t ∧ t.run = true ∧ (∀ o, i ≠ .call o) ∧ i ≠ .ret ∧
      (∀ v, i ≠ .jmp v) ∧ (∀ o, i ≠ .jeq o) ∧ (∀ o, i ≠ .jne o) :=
  ⟨_, by decide, by decide, rfl, rfl, nofun, nofun, nofun, nofun, nofun⟩

theorem witness_StraightLineCodeMovesUp_jumps :
    let s := startAt 254 [0x55, 0] fresh
    let u := startAt 254 [0x56, 0] (fresh.setFl 0b001)
    ∃ t v, s.fetch = .ok (.jeq 0) ∧ s.fl ≠ 0b001#3 ∧ step s = .next t ∧ t.run = true ∧
      u.fetch = .ok (.jne 0) ∧ u.fl = 0b001#3 ∧ step u = .next v ∧ v.run = true :=
  ⟨_, _, by decide, by decide, rfl, rfl, by decide, by decide, rfl, rfl⟩

theorem witness_CompareEffect :
    fresh.reg 0 = fresh.reg 1 ∧ ((fresh.setReg 0 1).reg 1).toNat < ((fresh.setReg 0 1).reg 0).toNat ∧
    ((fresh.setReg 1 1).reg 0).toNat < ((fresh.setReg 1 1).reg 1).toNat := by decide

/-- The amounts 7, 8 and 255 of SHL and SHR. -/
theorem witness_shiftAmounts : (7 : Byte).toNat < 8 ∧ 8 ≤ (8 : Byte).toNat ∧ 8 ≤ (255 : Byte).toNat := by decide

theorem witness_ModEffect : (fresh.setReg 1 1).reg 1 ≠ 0#8 ∧ fresh.reg 1 = 0#8 := by decide

theorem witness_DivideByZeroIsReportedByModAlone :
    ∃ t, fresh.reg 1 = 0#8 ∧ fresh.run = true ∧ step (startAt 0 [0xA4, 0, 1] fresh) = .next t ∧ t.diag ≠ fresh.diag :=
  ⟨_, by decide, rfl, rfl, by decide⟩

theorem witness_RegisterWritesWrap :
    let s := (fresh.setReg 0 255).setReg 1 1
    s.reg 0 = 255 ∧ s.reg 1 = 1 ∧ s.reg 7 = 0 := by decide

theorem witness_RegistersReadAndWritten :
    let s := fresh
    let s' := fresh.setReg 5 9
    ∃ t t', { s' with x := s.x } = s ∧ (∀ r ∈ regsRead s (.mod 0 1), s'.reg r = s.reg r) ∧
      exec (.mod 0 1) s = .next t ∧ exec (.mod 0 1) s' = .next t' := ⟨_, _, rfl, by decide, rfl, rfl⟩

theorem witness_FlagsStayOneHot :
    let s := startAt 0 [0xA7, 0, 1] fresh
    ∃ t, FlLegal s.fl ∧ step s = .next t ∧ exec (.cmp 0 1) s = .next t := ⟨_, by decide, rfl, rfl⟩

theorem witness_OnlyCompareWritesFlags :
    let s := startAt 0 [0xA7, 0, 1] (fresh.setFl 0b100)
    ∃ t, exec (.cmp (regByte 0) (regByte 1)) s = .next t ∧ t.fl ≠ s.fl ∧ step s = .next t ∧ s.fl ≠ 0b000#3 :=
  ⟨_, rfl, by decide, rfl, by decide⟩

theorem witness_OnlyCompareWritesFlags_others :
    ∃ t u, (∀ o, Instr.push 0 ≠ .jeq o) ∧ (∀ o, Instr.push 0 ≠ .jne o) ∧ exec (.push 0) fresh = .next t ∧
      exec .hlt fresh = .next u := ⟨_, _, nofun, nofun, rfl, rfl⟩

theorem witness_MemoryHoldsTheLastWrite : 255 ≤ 255 ∧ (254 : Nat) ≠ (255 : Byte).toNat := by decide

theorem witness_MemoryIsReached_writes :
    let s := fresh.setReg 0 7
    ∃ t u, exec (.push 0) s = .next t ∧ t.memRead 255 ≠ s.memRead 255 ∧
      exec (.call 0) s = .next u ∧ u.memRead 255 ≠ s.memRead 255 := ⟨_, _, rfl, by decide, rfl, by decide⟩

theorem witness_MemoryIsReached_others :
    ∃ t, (∀ o, Instr.push 0 ≠ .pop o) ∧ Instr.push 0 ≠ .ret ∧ exec (.push 0) fresh = .next t := ⟨_, nofun, nofun, rfl⟩

theorem witness_MemoryIsReached_reads :
    let s := startAt 0 [0x46, 3] fresh
    ∃ t u, Memory.read [(0, 0x46), (9, 1)] (s.reg 7).toNat = s.load (s.reg 7) ∧ exec (.pop 3) s = .next t ∧
      exec .ret s = .next u := ⟨_, _, by decide, rfl, rfl⟩

theorem witness_CanonicalMemoriesAreEqualWhenReadsAre :
    Memory.wf [(0, 1#8), (255, 2#8)] ∧ ∀ a, a ≤ 255 → Memory.read [(0, 1#8), (255, 2#8)] a =
      Memory.read [(0, 1#8), (255, 2#8)] a := ⟨by decide, fun _ _ => rfl⟩

end Sys2Proof.Tests
end

section
/-! SUPPORT. The registers after reset, truncation, and the complement (10_state.md R16, R17). -/

namespace Sys2Proof.Machine

@[simp] theorem State.resetWith_reg (c : Config) (r : Reg) : (State.resetWith c).reg r = 0 := by
  simp [State.reg, State.resetWith]

@[simp] theorem trunc8_toNat (v : Nat) : (trunc8 v).toNat = v % 256 := BitVec.toNat_ofNat v 8

@[simp] theorem aluNot_toNat (u : Byte) : (aluNot u).toNat = 255 - u.toNat := by
  rw [aluNot, trunc8_toNat]
  omega

end Sys2Proof.Machine
end

section
/-! SUPPORT. The instructions on legal register operands that the state's own statements speak of. -/

namespace Sys2Proof.Machine

variable (s : State) (a b : Reg)

@[simp] theorem exec_prn_regByte : exec (.prn (regByte a)) s = .next ((s.emit (s.reg a)).advance 2) :=
  withReg_regByte a s _

@[simp] theorem exec_push_regByte :
    exec (.push (regByte a)) s = .next ((s.pushThrough sp (s.reg a)).advance 2) :=
  withReg_regByte a s _

@[simp] theorem exec_not_regByte : exec (.not (regByte a)) s = .next ((s.setReg a (aluNot (s.reg a))).advance 2) :=
  withReg_regByte a s _

@[simp] theorem exec_add_regByte :
    exec (.add (regByte a) (regByte b)) s = .next ((s.setReg a (aluAdd (s.reg a) (s.reg b))).advance 3) :=
  binary_regByte aluAdd a b s

@[simp] theorem exec_cmp_regByte :
    exec (.cmp (regByte a) (regByte b)) s = .next ((s.setFl (compareFlags (s.reg a) (s.reg b))).advance 3) :=
  withRegs_regByte a b s _

end Sys2Proof.Machine
end

section
/-! O1 and O48: the registers after reset, and their width. -/

namespace Sys2Proof.Machine

/-- Settles O1: PRN emits what reset put in the register. -/
theorem resetRegistersAreZero : Obligations.ResetRegistersAreZero := by
  refine ⟨State.resetWith_reg, fun c r => ⟨_, exec_prn_regByte _ r, ?_, rfl⟩⟩
  rw [State.advance_out, State.emit_out, State.resetWith_reg]
  rfl

/-- Settles O48: the wrapping is that of `trunc8`, and for PUSH that of the byte subtraction. -/
theorem registerWritesWrap : Obligations.RegisterWritesWrap := by
  refine ⟨trunc8_toNat, fun a b s ha hb => ?_, fun a s h7 => ?_, fun a s => ?_⟩
  · refine ⟨_, exec_add_regByte s a b, ?_⟩
    simp [ha, hb, aluAdd, trunc8]
  · refine ⟨_, exec_push_regByte s a, ?_⟩
    simp [sp, h7]
  · refine ⟨_, exec_not_regByte s a, ?_⟩
    simp

end Sys2Proof.Machine
end

section
/-! SUPPORT. Who writes `FL`, and what depends on it (10_state.md R22, R23). -/

namespace Sys2Proof.Machine

/-- CMP's result has exactly one bit set. -/
theorem compareFlags_cases (u v : Byte) :
    compareFlags u v = 0b001#3 ∨ compareFlags u v = 0b010#3 ∨ compareFlags u v = 0b100#3 := by
  unfold compareFlags
  split
  · exact .inl rfl
  · split
    · exact .inr (.inl rfl)
    · exact .inr (.inr rfl)

theorem compareFlags_legal (u v : Byte) : FlLegal (compareFlags u v) := .inr (compareFlags_cases u v)

theorem compareFlags_ne_zero (u v : Byte) : compareFlags u v ≠ 0b000#3 := by
  rcases compareFlags_cases u v with h | h | h <;> rw [h] <;> decide

theorem State.isEqual_iff {s : State} : s.isEqual = true ↔ s.fl = 0b001#3 := beq_iff_eq

/-- A one-register instruction whose meaning keeps `FL` keeps it on every operand byte. -/
theorem withReg_keeps_fl {o : Byte} {s t : State} {k : Reg → State} (h : withReg o s k = .next t)
    (hk : ∀ a, (k a).fl = s.fl) : t.fl = s.fl := by
  rcases withReg_next h with ⟨a, -, rfl⟩ | ⟨-, rfl⟩
  · exact hk a
  · rfl

/-- A two-register instruction whose meaning keeps `FL` keeps it on every pair of operand bytes. -/
theorem withRegs_keeps_fl {o1 o2 : Byte} {s t : State} {k : Reg → Reg → State} (h : withRegs o1 o2 s k = .next t)
    (hk : ∀ a b, (k a b).fl = s.fl) : t.fl = s.fl := by
  rcases withRegs_next h with ⟨a, b, -, -, rfl⟩ | ⟨-, rfl⟩ | ⟨a, -, -, rfl⟩
  · exact hk a b
  · rfl
  · rfl

/-- Everything an instruction can do to `FL`: keep it, or be CMP on two registers and write the comparison. -/
theorem exec_fl {i : Instr} {s t : State} (h : exec i s = .next t) :
    t.fl = s.fl ∨ ∃ a b, i = .cmp (regByte a) (regByte b) ∧ t.fl = compareFlags (s.reg a) (s.reg b) := by
  cases i
  case cmp o1 o2 =>
    rcases withRegs_next h with ⟨a, b, rfl, rfl, rfl⟩ | ⟨-, rfl⟩ | ⟨a, -, -, rfl⟩
    · exact .inr ⟨a, b, rfl, rfl⟩
    · exact .inl rfl
    · exact .inl rfl
  all_goals left
  case hlt | ret | jmp => cases h; rfl
  case ldi | prn | push | pop | call | not => exact withReg_keeps_fl h fun _ => rfl
  case jeq | jne => exact withReg_keeps_fl h fun _ => by split <;> rfl
  case mod => exact withRegs_keeps_fl h fun _ _ => by split <;> rfl
  case and | or | xor | shl | shr | add | mul => exact withRegs_keeps_fl h fun _ _ => rfl

/-- Everything a step can do to `FL`: keep it, or write the comparison of two bytes. -/
theorem step_fl {s t : State} (h : step s = .next t) : t.fl = s.fl ∨ ∃ u v, t.fl = compareFlags u v := by
  obtain ⟨-, ⟨i, -, hi⟩ | ⟨e, -, rfl⟩⟩ := step_next h
  · exact (exec_fl hi).imp_right fun ⟨a, b, _, hfl⟩ => ⟨_, _, hfl⟩
  · exact .inl rfl

/-- A one-register instruction whose meaning carries `FL` along does so on every operand byte. -/
theorem withReg_setFl {o : Byte} {s t : State} {f : Flags} {k k' : Reg → State} (h : withReg o s k = .next t)
    (hk : ∀ a, k' a = (k a).setFl f) : withReg o (s.setFl f) k' = .next (t.setFl f) := by
  rcases withReg_next h with ⟨a, rfl, rfl⟩ | ⟨ho, rfl⟩
  · rw [withReg_regByte, hk]
  · rw [withReg_bad ho]; rfl

/-- A two-register instruction whose meaning carries `FL` along does so on every pair of operand bytes. -/
theorem withRegs_setFl {o1 o2 : Byte} {s t : State} {f : Flags} {k k' : Reg → Reg → State}
    (h : withRegs o1 o2 s k = .next t) (hk : ∀ a b, k' a b = (k a b).setFl f) :
    withRegs o1 o2 (s.setFl f) k' = .next (t.setFl f) := by
  rcases withRegs_next h with ⟨a, b, rfl, rfl, rfl⟩ | ⟨ho, rfl⟩ | ⟨a, rfl, ho, rfl⟩
  · rw [withRegs_regByte, hk]
  · rw [withRegs_bad_first ho]; rfl
  · rw [withRegs_bad_second ho]; rfl

/-- Any instruction but CMP, JEQ and JNE carries `FL` along and does not look at it. -/
theorem exec_setFl {i : Instr} {s t : State} (f : Flags) (hcmp : ∀ o1 o2, i ≠ .cmp o1 o2) (hjeq : ∀ o, i ≠ .jeq o)
    (hjne : ∀ o, i ≠ .jne o) (h : exec i s = .next t) : exec i (s.setFl f) = .next (t.setFl f) := by
  cases i
  case cmp o1 o2 => exact absurd rfl (hcmp o1 o2)
  case jeq o => exact absurd rfl (hjeq o)
  case jne o => exact absurd rfl (hjne o)
  case hlt | ret | jmp => cases h; rfl
  case ldi | prn | push | pop | call | not => exact withReg_setFl h fun _ => rfl
  case mod => exact withRegs_setFl h fun a b => by by_cases hb : s.reg b = 0#8 <;> simp [hb] <;> rfl
  case and | or | xor | shl | shr | add | mul => exact withRegs_setFl h fun _ _ => rfl

/-- CMP does not look at `FL`: it overwrites it, or RegisterError carries it along. -/
theorem exec_cmp_setFl {o1 o2 : Byte} {s t : State} (f : Flags) (h : exec (.cmp o1 o2) s = .next t) :
    exec (.cmp o1 o2) (s.setFl f) = .next (t.setFl f) ∨ exec (.cmp o1 o2) (s.setFl f) = .next t := by
  rcases withRegs_next h with ⟨a, b, rfl, rfl, rfl⟩ | ⟨ho, rfl⟩ | ⟨a, rfl, ho, rfl⟩
  · exact .inr (exec_cmp_regByte (s.setFl f) a b)
  · exact .inl (withRegs_bad_first ho _ _ _)
  · exact .inl (withRegs_bad_second ho _ _ _)

end Sys2Proof.Machine
end

section
/-! O50 and O51: the flag latch. -/

namespace Sys2Proof.Machine

/-- Each one-bit value is CMP's result on registers 0 and 1 of a state that has had no comparison yet. -/
theorem cmp_reaches_oneBit {v : Flags} (hv : v = 0b001#3 ∨ v = 0b010#3 ∨ v = 0b100#3) :
    ∃ s : State, s.fl = 0b000#3 ∧ compareFlags (s.reg 0) (s.reg 1) = v := by
  rcases hv with rfl | rfl | rfl
  · exact ⟨State.reset, rfl, by decide⟩
  · exact ⟨State.reset.setReg 0 1, rfl, by decide⟩
  · exact ⟨State.reset.setReg 1 1, rfl, by decide⟩

/-- Settles O50: `FL` is kept or becomes a comparison's result. -/
theorem flagsStayOneHot : Obligations.FlagsStayOneHot := by
  refine ⟨rfl, fun s t hs h => ?_, fun i s t hs h => ?_, fun a b s => ?_, fun v hv => ?_⟩
  · rcases step_fl h with hfl | ⟨u, v, hfl⟩ <;> rw [hfl]
    · exact hs
    · exact compareFlags_legal u v
  · rcases exec_fl h with hfl | ⟨a, b, -, hfl⟩ <;> rw [hfl]
    · exact hs
    · exact compareFlags_legal _ _
  · exact ⟨_, exec_cmp_regByte s a b, compareFlags_cases _ _⟩
  · obtain ⟨s, hs, hcmp⟩ := cmp_reaches_oneBit hv
    exact ⟨0, 1, s, _, hs, exec_cmp_regByte s 0 1, hcmp⟩

/-- Settles O51: `exec_fl` says who writes `FL`, `exec_setFl` and `exec_cmp_setFl` who does not read it. -/
theorem onlyCompareWritesFlags : Obligations.OnlyCompareWritesFlags := by
  refine ⟨fun i s t h hne => ?_, fun i hjeq hjne s t f h => ?_, fun s t h hs => ?_, fun _ _ => rfl, fun s t h => ?_, rfl⟩
  · obtain ⟨a, b, hi, -⟩ := (exec_fl h).resolve_left hne
    exact ⟨a, b, hi⟩
  · by_cases hcmp : ∃ o1 o2, i = .cmp o1 o2
    · obtain ⟨o1, o2, rfl⟩ := hcmp
      exact exec_cmp_setFl f h
    · exact .inl (exec_setFl f (fun o1 o2 hi => hcmp ⟨o1, o2, hi⟩) hjeq hjne h)
  · rcases step_fl h with hfl | ⟨u, v, hfl⟩ <;> rw [hfl]
    · exact hs
    · exact compareFlags_ne_zero u v
  · cases h; rfl

end Sys2Proof.Machine
end

section
/-! SUPPORT. Two states that differ in registers alone, and the operations of State run on both. -/

namespace Sys2Proof.Machine

/-- The two states agree on everything that is no register. -/
def SameBesideRegs (s s' : State) : Prop := { s' with x := s.x } = s

theorem sameBesideRegs_iff {s s' : State} : SameBesideRegs s s' ↔ ∃ y, s' = { s with x := y } := by
  constructor
  · intro h
    refine ⟨s'.x, ?_⟩
    rw [← h]
  · rintro ⟨y, rfl⟩
    rfl

namespace SameBesideRegs

variable {s s' : State}

theorem fl (h : SameBesideRegs s s') : s'.fl = s.fl := by obtain ⟨y, rfl⟩ := sameBesideRegs_iff.mp h; rfl
theorem pc (h : SameBesideRegs s s') : s'.pc = s.pc := by obtain ⟨y, rfl⟩ := sameBesideRegs_iff.mp h; rfl
theorem isEqual (h : SameBesideRegs s s') : s'.isEqual = s.isEqual := by rw [State.isEqual, h.fl, State.isEqual]
theorem returnByte (h : SameBesideRegs s s') : s'.returnByte = s.returnByte := by
  rw [State.returnByte, h.pc, State.returnByte]
theorem load (h : SameBesideRegs s s') (b : Byte) : s'.load b = s.load b := by
  obtain ⟨y, rfl⟩ := sameBesideRegs_iff.mp h; rfl
theorem callSp (h : SameBesideRegs s s') : s'.callSp = s.callSp := by
  obtain ⟨y, rfl⟩ := sameBesideRegs_iff.mp h; rfl

/-- The two values may differ: it is a register that they are written to. -/
theorem setReg (h : SameBesideRegs s s') (r : Reg) (v v' : Byte) : SameBesideRegs (s.setReg r v) (s'.setReg r v') := by
  obtain ⟨y, rfl⟩ := sameBesideRegs_iff.mp h; rfl
theorem store (h : SameBesideRegs s s') (b v : Byte) : SameBesideRegs (s.store b v) (s'.store b v) := by
  obtain ⟨y, rfl⟩ := sameBesideRegs_iff.mp h; rfl
theorem advance (h : SameBesideRegs s s') (n : Nat) : SameBesideRegs (s.advance n) (s'.advance n) := by
  obtain ⟨y, rfl⟩ := sameBesideRegs_iff.mp h; rfl
theorem jump (h : SameBesideRegs s s') (v : Byte) : SameBesideRegs (s.jump v) (s'.jump v) := by
  obtain ⟨y, rfl⟩ := sameBesideRegs_iff.mp h; rfl
theorem setFl (h : SameBesideRegs s s') (f : Flags) : SameBesideRegs (s.setFl f) (s'.setFl f) := by
  obtain ⟨y, rfl⟩ := sameBesideRegs_iff.mp h; rfl
theorem emit (h : SameBesideRegs s s') (v : Byte) : SameBesideRegs (s.emit v) (s'.emit v) := by
  obtain ⟨y, rfl⟩ := sameBesideRegs_iff.mp h; rfl
theorem report (h : SameBesideRegs s s') (e : DiagEvent) : SameBesideRegs (s.report e) (s'.report e) := by
  obtain ⟨y, rfl⟩ := sameBesideRegs_iff.mp h; rfl
theorem stop (h : SameBesideRegs s s') : SameBesideRegs s.stop s'.stop := by
  obtain ⟨y, rfl⟩ := sameBesideRegs_iff.mp h; rfl
theorem raise (h : SameBesideRegs s s') (c : FaultCause) : SameBesideRegs (s.raise c) (s'.raise c) := by
  obtain ⟨y, rfl⟩ := sameBesideRegs_iff.mp h; rfl
theorem pushThrough (h : SameBesideRegs s s') {r : Reg} (hr : s'.reg r = s.reg r) (v : Byte) :
    SameBesideRegs (s.pushThrough r v) (s'.pushThrough r v) := by
  simpa [State.pushThrough, hr] using (h.setReg r (s.reg r - 1#8) (s.reg r - 1#8)).store (s.reg r - 1#8) v

end SameBesideRegs

/-- From `s` to `t` no register outside `ws` changed, and the run from the twin of `s` ends in a twin `t'` of `t` that
agrees with `t` on the registers `ws`. -/
structure WritesAlike (ws : List Reg) (s t t' : State) : Prop where
  kept : ∀ r, r ∉ ws → t.reg r = s.reg r
  alike : ∀ r ∈ ws, t'.reg r = t.reg r
  rest : SameBesideRegs t t'

/-- A run that changes no register. -/
theorem WritesAlike.of_reg_eq {ws : List Reg} {s s' t t' : State} (ht : ∀ r, t.reg r = s.reg r)
    (ht' : ∀ r, t'.reg r = s'.reg r) (hws : ∀ r ∈ ws, s'.reg r = s.reg r) (rest : SameBesideRegs t t') :
    WritesAlike ws s t t' where
  kept r _ := ht r
  alike r hr := by rw [ht, ht', hws r hr]
  rest := rest

/-- A run that writes one value to one register. -/
theorem WritesAlike.of_setReg {s t t' : State} {a : Reg} (v : Byte) (ht : ∀ r, t.reg r = if a = r then v else s.reg r)
    (ht' : t'.reg a = v) (rest : SameBesideRegs t t') : WritesAlike [a] s t t' where
  kept r hr := by rw [ht, if_neg fun h => hr (List.mem_singleton.mpr h.symm)]
  alike r hr := by
    obtain rfl := List.mem_singleton.mp hr
    rw [ht, if_pos rfl, ht']
  rest := rest

@[simp] theorem regList_regByte (a : Reg) : regList (regByte a) = [a] := by simp [regList]

theorem regList_bad {o : Byte} (h : reg o = none) : regList o = [] := by simp [regList, h]

variable {ws : List Reg} {s s' t t' : State}

/-- One register operand: it is enough to look at the legal ones, where the registers `ws` agree beforehand if the
operand is bad. -/
theorem withReg_writesAlike {o : Byte} {k k' : Reg → State} (hs : SameBesideRegs s s')
    (h : withReg o s k = .next t) (h' : withReg o s' k' = .next t')
    (hk : ∀ a, o = regByte a → WritesAlike ws s (k a) (k' a))
    (hws : reg o = none → ∀ r ∈ ws, s'.reg r = s.reg r) : WritesAlike ws s t t' := by
  rcases withReg_next h with ⟨a, rfl, rfl⟩ | ⟨ho, rfl⟩
  · rw [withReg_regByte] at h'
    cases h'
    exact hk a rfl
  · rw [withReg_bad ho] at h'
    cases h'
    exact .of_reg_eq (fun _ => rfl) (fun _ => rfl) (hws ho) (hs.raise _)

/-- Two register operands, all of whose registers are read. -/
theorem withRegs_writesAlike {o1 o2 : Byte} {k k' : Reg → Reg → State} (hs : SameBesideRegs s s')
    (h : withRegs o1 o2 s k = .next t) (h' : withRegs o1 o2 s' k' = .next t')
    (hk : ∀ a b, o1 = regByte a → o2 = regByte b → WritesAlike ws s (k a b) (k' a b))
    (hws : ∀ r ∈ ws, s'.reg r = s.reg r) : WritesAlike ws s t t' := by
  rcases withRegs_next h with ⟨a, b, rfl, rfl, rfl⟩ | ⟨ho, rfl⟩ | ⟨a, rfl, ho, rfl⟩
  · rw [withRegs_regByte] at h'
    cases h'
    exact hk a b rfl rfl
  · rw [withRegs_bad_first ho] at h'
    cases h'
    exact .of_reg_eq (fun _ => rfl) (fun _ => rfl) hws (hs.raise _)
  · rw [withRegs_bad_second ho] at h'
    cases h'
    exact .of_reg_eq (fun _ => rfl) (fun _ => rfl) hws (hs.raise _)

/-- The row of R15 shared by the two-operand ALU operations: both registers read, the first written. -/
theorem binary_writesAlike {f : Byte → Byte → Byte} {o1 o2 : Byte} (hs : SameBesideRegs s s')
    (hr : ∀ r ∈ regList o1 ++ regList o2, s'.reg r = s.reg r)
    (h : binary f o1 o2 s = .next t) (h' : binary f o1 o2 s' = .next t') : WritesAlike (regList o1) s t t' := by
  refine withRegs_writesAlike hs h h' (fun a b ha hb => ?_) fun r hm => hr r (List.mem_append_left _ hm)
  subst ha hb
  have hra : s'.reg a = s.reg a := hr a (by simp)
  have hrb : s'.reg b = s.reg b := hr b (by simp)
  rw [regList_regByte]
  exact .of_setReg (f (s.reg a) (s.reg b)) (fun r => by simp) (by simp [hra, hrb]) ((hs.setReg _ _ _).advance 3)

end Sys2Proof.Machine
end

section
/-! O49: the table of registers read and written. One lemma for each row that is not a two-operand ALU operation. -/

namespace Sys2Proof.Machine

variable {s s' t t' : State}

theorem execLdi_writesAlike {o1 imm : Byte} (hs : SameBesideRegs s s')
    (h : execLdi o1 imm s = .next t) (h' : execLdi o1 imm s' = .next t') : WritesAlike (regList o1) s t t' := by
  refine withReg_writesAlike hs h h' (fun a ha => ?_) fun ho => by simp [regList_bad ho]
  subst ha
  rw [regList_regByte]
  exact .of_setReg imm (fun r => by simp) (by simp) ((hs.setReg a imm imm).advance 3)

theorem execNot_writesAlike {o1 : Byte} (hs : SameBesideRegs s s') (hr : ∀ r ∈ regList o1, s'.reg r = s.reg r)
    (h : execNot o1 s = .next t) (h' : execNot o1 s' = .next t') : WritesAlike (regList o1) s t t' := by
  refine withReg_writesAlike hs h h' (fun a ha => ?_) fun _ => hr
  subst ha
  have hra : s'.reg a = s.reg a := hr a (by simp)
  rw [regList_regByte]
  exact .of_setReg (aluNot (s.reg a)) (fun r => by simp) (by simp [hra]) ((hs.setReg _ _ _).advance 2)

theorem execPrn_writesAlike {o1 : Byte} (hs : SameBesideRegs s s') (hr : ∀ r ∈ regList o1, s'.reg r = s.reg r)
    (h : execPrn o1 s = .next t) (h' : execPrn o1 s' = .next t') : WritesAlike [] s t t' := by
  refine withReg_writesAlike hs h h' (fun a ha => ?_) fun _ => nofun
  subst ha
  rw [hr a (by simp)]
  exact .of_reg_eq (fun _ => rfl) (fun _ => rfl) nofun ((hs.emit _).advance 2)

theorem execPush_writesAlike {o1 : Byte} (hs : SameBesideRegs s s')
    (hr : ∀ r ∈ sp :: regList o1, s'.reg r = s.reg r)
    (h : execPush o1 s = .next t) (h' : execPush o1 s' = .next t') : WritesAlike [sp] s t t' := by
  have hsp : s'.reg sp = s.reg sp := hr sp List.mem_cons_self
  refine withReg_writesAlike hs h h' (fun a ha => ?_) fun _ => by simpa using hsp
  subst ha
  rw [hr a (by simp)]
  exact .of_setReg (s.reg sp - 1#8) (fun r => by simp) (by simp [hsp]) ((hs.pushThrough hsp _).advance 2)

theorem execPop_writesAlike {o1 : Byte} (hs : SameBesideRegs s s') (hsp : s'.reg sp = s.reg sp)
    (h : execPop o1 s = .next t) (h' : execPop o1 s' = .next t') : WritesAlike (sp :: regList o1) s t t' := by
  refine withReg_writesAlike hs h h' (fun a ha => ?_) fun ho => by simpa [regList_bad ho] using hsp
  subst ha
  rw [regList_regByte, hsp, hs.load]
  refine ⟨fun r hm => ?_, fun r hm => ?_, ((hs.setReg _ _ _).setReg _ _ _).advance 2⟩
  · have hne : sp ≠ r ∧ a ≠ r := by simpa [eq_comm] using hm
    simp [hne]
  · rcases List.mem_pair.mp hm with rfl | rfl <;> simp [hsp]

theorem execCall_writesAlike {o1 : Byte} (hs : SameBesideRegs s s')
    (hr : ∀ r ∈ s.callSp :: regList o1, s'.reg r = s.reg r)
    (h : execCall o1 s = .next t) (h' : execCall o1 s' = .next t') : WritesAlike [s.callSp] s t t' := by
  have hsp : s'.reg s.callSp = s.reg s.callSp := hr s.callSp List.mem_cons_self
  refine withReg_writesAlike hs h h' (fun a ha => ?_) fun _ => by simpa using hsp
  subst ha
  have hra : s'.reg a = s.reg a := hr a (by simp)
  have htarget : (s'.pushThrough s.callSp s.returnByte).reg a = (s.pushThrough s.callSp s.returnByte).reg a := by
    simp [hsp, hra]
  simp only [hs.callSp, hs.returnByte, htarget]
  exact .of_setReg (s.reg s.callSp - 1#8) (fun r => by simp) (by simp [hsp]) ((hs.pushThrough hsp _).jump _)

theorem execRet_writesAlike (hs : SameBesideRegs s s') (hsp : s'.reg sp = s.reg sp)
    (h : execRet s = .next t) (h' : execRet s' = .next t') : WritesAlike [sp] s t t' := by
  cases h
  cases h'
  rw [hsp, hs.load]
  exact .of_setReg (s.reg sp + 1#8) (fun r => by simp) (by simp) ((hs.jump _).setReg _ _ _)

theorem execCmp_writesAlike {o1 o2 : Byte} (hs : SameBesideRegs s s')
    (hr : ∀ r ∈ regList o1 ++ regList o2, s'.reg r = s.reg r)
    (h : execCmp o1 o2 s = .next t) (h' : execCmp o1 o2 s' = .next t') : WritesAlike [] s t t' := by
  refine withRegs_writesAlike hs h h' (fun a b ha hb => ?_) nofun
  subst ha hb
  rw [hr a (by simp), hr b (by simp)]
  exact .of_reg_eq (fun _ => rfl) (fun _ => rfl) nofun ((hs.setFl _).advance 3)

/-- The jump is decided by `FL`, which both states share; the register is read only where it is taken. -/
theorem execJeq_writesAlike {o1 : Byte} (hs : SameBesideRegs s s')
    (hr : s.isEqual = true → ∀ r ∈ regList o1, s'.reg r = s.reg r)
    (h : execJeq o1 s = .next t) (h' : execJeq o1 s' = .next t') : WritesAlike [] s t t' := by
  refine withReg_writesAlike hs h h' (fun a ha => ?_) fun _ => nofun
  subst ha
  rw [hs.isEqual]
  split
  · next he =>
    rw [hr he a (by simp)]
    exact .of_reg_eq (fun _ => rfl) (fun _ => rfl) nofun (hs.jump _)
  · exact .of_reg_eq (fun _ => rfl) (fun _ => rfl) nofun (hs.advance 2)

theorem execJne_writesAlike {o1 : Byte} (hs : SameBesideRegs s s')
    (hr : ¬ s.isEqual = true → ∀ r ∈ regList o1, s'.reg r = s.reg r)
    (h : execJne o1 s = .next t) (h' : execJne o1 s' = .next t') : WritesAlike [] s t t' := by
  refine withReg_writesAlike hs h h' (fun a ha => ?_) fun _ => nofun
  subst ha
  rw [hs.isEqual]
  split
  · exact .of_reg_eq (fun _ => rfl) (fun _ => rfl) nofun (hs.advance 2)
  · next he =>
    rw [hr he a (by simp)]
    exact .of_reg_eq (fun _ => rfl) (fun _ => rfl) nofun (hs.jump _)

/-- A zero divisor, which both states share, is reported and writes no register. -/
theorem execMod_writesAlike {o1 o2 : Byte} (hs : SameBesideRegs s s')
    (hr : ∀ r ∈ regList o1 ++ regList o2, s'.reg r = s.reg r)
    (h : execMod o1 o2 s = .next t) (h' : execMod o1 o2 s' = .next t') :
    WritesAlike (regsWritten s (.mod o1 o2)) s t t' := by
  refine withRegs_writesAlike hs h h' (fun a b ha hb => ?_) fun r hm => ?_
  · subst ha hb
    have hra : s'.reg a = s.reg a := hr a (by simp)
    have hrb : s'.reg b = s.reg b := hr b (by simp)
    by_cases hzero : s.reg b = 0#8
    · simp only [regsWritten, regList_regByte, List.mem_singleton, exists_eq_left, hzero, hrb, if_true, hs.pc]
      exact .of_reg_eq (fun _ => rfl) (fun _ => rfl) nofun ((hs.report _).advance 3)
    · simp only [regsWritten, regList_regByte, List.mem_singleton, exists_eq_left, hzero, hrb, hra, if_false]
      exact .of_setReg (aluMod (s.reg a) (s.reg b)) (fun r => by simp) (by simp) ((hs.setReg _ _ _).advance 3)
  · simp only [regsWritten] at hm
    split at hm
    · cases hm
    · exact hr r (List.mem_append_left _ hm)

/-- Every row of the table of R15. -/
theorem exec_writesAlike {i : Instr} (hs : SameBesideRegs s s') (hr : ∀ r ∈ regsRead s i, s'.reg r = s.reg r)
    (h : exec i s = .next t) (h' : exec i s' = .next t') : WritesAlike (regsWritten s i) s t t' := by
  cases i
  case hlt => cases h; cases h'; exact .of_reg_eq (fun _ => rfl) (fun _ => rfl) nofun hs.stop
  case jmp => cases h; cases h'; exact .of_reg_eq (fun _ => rfl) (fun _ => rfl) nofun (hs.jump _)
  case ldi => exact execLdi_writesAlike hs h h'
  case prn => exact execPrn_writesAlike hs hr h h'
  case not => exact execNot_writesAlike hs hr h h'
  case push => exact execPush_writesAlike hs hr h h'
  case pop => exact execPop_writesAlike hs (hr sp List.mem_cons_self) h h'
  case call => exact execCall_writesAlike hs hr h h'
  case ret => exact execRet_writesAlike hs (hr sp List.mem_cons_self) h h'
  case cmp => exact execCmp_writesAlike hs hr h h'
  case mod => exact execMod_writesAlike hs hr h h'
  case jeq =>
    exact execJeq_writesAlike hs (fun he => by simpa only [regsRead, State.isEqual_iff.mp he, if_true] using hr) h h'
  case jne =>
    exact execJne_writesAlike hs (fun he => by simpa only [regsRead, mt State.isEqual_iff.mpr he, if_false] using hr) h h'
  case and | or | xor | shl | shr | add | mul => exact binary_writesAlike hs hr h h'

/-- Settles O49: row by row, `exec_writesAlike`. -/
theorem registersReadAndWritten : Obligations.RegistersReadAndWritten := by
  intro i s s' t t' hs hr h h'
  obtain ⟨kept, alike, rest⟩ := exec_writesAlike hs hr h h'
  exact ⟨kept, alike, rest⟩

end Sys2Proof.Machine
end

section
/-! SUPPORT. Which addresses read, and what a memory with one cell written reads as (20_memory.md R36). -/

namespace Sys2Proof.Machine

@[simp] theorem State.resetWith_memRead (c : Config) (a : Nat) :
    (State.resetWith c).memRead a = if a ≤ 255 then some 0 else none := rfl

theorem State.exists_memRead_eq_some {s : State} {a : Nat} : (∃ v, s.memRead a = some v) ↔ a ≤ 255 := by
  simp [State.memRead]

/-- States with the same memory read alike. -/
theorem State.memRead_congr {s t : State} (h : t.mem = s.mem) (b : Nat) : t.memRead b = s.memRead b := by
  rw [State.memRead, h, State.memRead]

/-- An address that reads differently after one cell is written is that cell's. -/
theorem State.eq_of_memRead_ne {s t : State} {a b : Nat} {v : Byte} (ht : t.mem = Memory.write s.mem a v)
    (hne : t.memRead b ≠ s.memRead b) : b = a := by
  by_contra hab
  apply hne
  rw [State.memRead, ht, Memory.read_write, if_neg (Ne.symm hab), State.memRead]

end Sys2Proof.Machine
end

section
/-! O52: memory is 256 cells that hold the last byte written, or 0. -/

namespace Sys2Proof.Machine

/-- Settles O52: `State.store_memRead` is both the cell written and the cells left alone. -/
theorem memoryHoldsTheLastWrite : Obligations.MemoryHoldsTheLastWrite := by
  refine ⟨fun c a ha => ?_, fun s a => State.exists_memRead_eq_some, fun s a v => ?_, fun s a v b hb => ?_⟩
  · rw [State.resetWith_memRead, if_pos ha]
  · rw [State.store_memRead, if_pos rfl]
  · rw [State.store_memRead, if_neg hb.symm]

end Sys2Proof.Machine
end

section
/-! SUPPORT. What an instruction does to memory, and what it does on another memory (20_memory.md R37). -/

namespace Sys2Proof.Machine

variable {s t : State}

/-- A one-register instruction whose meaning keeps memory keeps it on every operand byte. -/
theorem withReg_keeps_mem {o : Byte} {k : Reg → State} (h : withReg o s k = .next t)
    (hk : ∀ a, (k a).mem = s.mem) : t.mem = s.mem := by
  rcases withReg_next h with ⟨a, -, rfl⟩ | ⟨-, rfl⟩
  · exact hk a
  · rfl

/-- A two-register instruction whose meaning keeps memory keeps it on every pair of operand bytes. -/
theorem withRegs_keeps_mem {o1 o2 : Byte} {k : Reg → Reg → State} (h : withRegs o1 o2 s k = .next t)
    (hk : ∀ a b, (k a b).mem = s.mem) : t.mem = s.mem := by
  rcases withRegs_next h with ⟨a, b, -, -, rfl⟩ | ⟨-, rfl⟩ | ⟨a, -, -, rfl⟩
  · exact hk a b
  · rfl
  · rfl

/-- Everything an instruction can do to memory: keep it, or be PUSH or CALL on a register and write one cell, at the
pointer after its decrement. -/
theorem exec_mem {i : Instr} (h : exec i s = .next t) :
    t.mem = s.mem ∨
    (∃ a, i = .push (regByte a) ∧ t.mem = Memory.write s.mem (s.reg sp - 1#8).toNat (s.reg a)) ∨
    ∃ a, i = .call (regByte a) ∧ t.mem = Memory.write s.mem (s.reg s.callSp - 1#8).toNat s.returnByte := by
  cases i
  case push o =>
    rcases withReg_next h with ⟨a, rfl, rfl⟩ | ⟨-, rfl⟩
    · exact .inr (.inl ⟨a, rfl, by simp⟩)
    · exact .inl rfl
  case call o =>
    rcases withReg_next h with ⟨a, rfl, rfl⟩ | ⟨-, rfl⟩
    · exact .inr (.inr ⟨a, rfl, by simp⟩)
    · exact .inl rfl
  all_goals left
  case hlt | ret | jmp => cases h; rfl
  case ldi | prn | pop | not => exact withReg_keeps_mem h fun _ => rfl
  case jeq | jne => exact withReg_keeps_mem h fun _ => by split <;> rfl
  case mod => exact withRegs_keeps_mem h fun _ _ => by split <;> rfl
  case cmp | and | or | xor | shl | shr | add | mul => exact withRegs_keeps_mem h fun _ _ => rfl

@[simp] theorem State.withMem_reg (m : Memory) (q : Reg) : State.reg { s with mem := m } q = s.reg q := rfl

@[simp] theorem State.withMem_isEqual (m : Memory) : State.isEqual { s with mem := m } = s.isEqual := rfl

/-- A one-register instruction whose meaning carries memory along does so on every operand byte. -/
theorem withReg_withMem {o : Byte} {m : Memory} {k k' : Reg → State} (h : withReg o s k = .next t)
    (hk : ∀ a, k' a = { k a with mem := m }) : withReg o { s with mem := m } k' = .next { t with mem := m } := by
  rcases withReg_next h with ⟨a, rfl, rfl⟩ | ⟨ho, rfl⟩
  · rw [withReg_regByte, hk]
  · rw [withReg_bad ho]; rfl

/-- A two-register instruction whose meaning carries memory along does so on every pair of operand bytes. -/
theorem withRegs_withMem {o1 o2 : Byte} {m : Memory} {k k' : Reg → Reg → State} (h : withRegs o1 o2 s k = .next t)
    (hk : ∀ a b, k' a b = { k a b with mem := m }) :
    withRegs o1 o2 { s with mem := m } k' = .next { t with mem := m } := by
  rcases withRegs_next h with ⟨a, b, rfl, rfl, rfl⟩ | ⟨ho, rfl⟩ | ⟨a, rfl, ho, rfl⟩
  · rw [withRegs_regByte, hk]
  · rw [withRegs_bad_first ho]; rfl
  · rw [withRegs_bad_second ho]; rfl

/-- A one-register instruction whose meaning writes memory, but does not look at it, does the same on another memory. -/
theorem withReg_writes_withMem {o : Byte} {m : Memory} {k k' : Reg → State} (h : withReg o s k = .next t)
    (hk : ∀ a, ∃ m', k' a = { k a with mem := m' }) :
    ∃ m', withReg o { s with mem := m } k' = .next { t with mem := m' } := by
  rcases withReg_next h with ⟨a, rfl, rfl⟩ | ⟨ho, rfl⟩
  · obtain ⟨m', hm'⟩ := hk a
    exact ⟨m', by rw [withReg_regByte, hm']⟩
  · exact ⟨m, withReg_bad ho _ _⟩

/-- Any instruction but POP and RET does the same on another memory; only PUSH and CALL do not carry it along. -/
theorem exec_withMem {i : Instr} (m : Memory) (hpop : ∀ o, i ≠ .pop o) (hret : i ≠ .ret) (h : exec i s = .next t) :
    ∃ m', exec i { s with mem := m } = .next { t with mem := m' } := by
  cases i
  case pop o => exact absurd rfl (hpop o)
  case ret => exact absurd rfl hret
  case push | call => exact withReg_writes_withMem h fun _ => ⟨_, rfl⟩
  all_goals refine ⟨m, ?_⟩
  case hlt | jmp => cases h; rfl
  case ldi | prn | not => exact withReg_withMem h fun _ => rfl
  case jeq | jne => exact withReg_withMem h fun _ => by by_cases he : s.isEqual = true <;> simp [he] <;> rfl
  case mod => exact withRegs_withMem h fun _ b => by by_cases hb : s.reg b = 0#8 <;> simp [hb] <;> rfl
  case cmp | and | or | xor | shl | shr | add | mul => exact withRegs_withMem h fun _ _ => rfl

/-- POP looks at memory through register 7 alone. -/
theorem execPop_withMem {o : Byte} {m : Memory} (hm : Memory.read m (s.reg sp).toNat = s.load (s.reg sp))
    (h : execPop o s = .next t) : execPop o { s with mem := m } = .next { t with mem := m } := by
  refine withReg_withMem h fun a => ?_
  rw [← hm]
  rfl

/-- RET looks at memory through register 7 alone. -/
theorem execRet_withMem {m : Memory} (hm : Memory.read m (s.reg sp).toNat = s.load (s.reg sp))
    (h : execRet s = .next t) : execRet { s with mem := m } = .next { t with mem := m } := by
  cases h
  rw [← hm]
  rfl

end Sys2Proof.Machine
end

section
/-! O53: which instructions reach memory, and where. -/

namespace Sys2Proof.Machine

/-- Settles O53: `exec_mem` says who writes memory and where, the `withMem` lemmas who looks at it. -/
theorem memoryIsReachedByStackInstructionsAlone : Obligations.MemoryIsReachedByStackInstructionsAlone := by
  refine ⟨fun i s t h b hne => ?_, fun i hpop hret s t m h => exec_withMem m hpop hret h, fun o i hi s t m hm h => ?_⟩
  · rcases exec_mem h with hkeep | ⟨a, hi, hwrite⟩ | ⟨a, hi, hwrite⟩
    · exact absurd (State.memRead_congr hkeep b) hne
    · exact .inl ⟨_, hi, State.eq_of_memRead_ne hwrite hne⟩
    · exact .inr ⟨_, hi, State.eq_of_memRead_ne hwrite hne⟩
  · rcases List.mem_pair.mp hi with rfl | rfl
    · exact execPop_withMem hm h
    · exact execRet_withMem hm h

end Sys2Proof.Machine
end

section
/-! SUPPORT. How many bytes are opcodes, and the step on a byte that is none (30_encoding.md R64, 60_exceptions.md
R113, R114). -/

namespace Sys2Proof

/-- A byte is an opcode exactly when some mnemonic has it. -/
theorem OpcodeMap.lookup_isSome {m : OpcodeMap} {op : Byte} :
    (m.lookup op).isSome = true ↔ ∃ k, m.opcodeOf k = op := by
  rw [Option.isSome_iff_ne_none, ne_eq, OpcodeMap.lookup_none, not_forall_not]

/-- The bytes of a legal map are distinct also as numbers. -/
theorem OpcodeMap.opcodeNats_nodup {m : OpcodeMap} (hm : m.legal = true) :
    (Mnemonic.all.map fun k => (m.opcodeOf k).toNat).Nodup := by
  have hall : Mnemonic.all.Nodup := by decide
  exact hall.map fun _ _ h => OpcodeMap.opcodeOf_injective hm (BitVec.eq_of_toNat_eq h)

/-- The byte values that a legal map looks up are those of the mnemonics, each once. -/
theorem OpcodeMap.opcodeNats_perm {m : OpcodeMap} (hm : m.legal = true) :
    ((List.range 256).filter fun n => (m.lookup (BitVec.ofNat 8 n)).isSome).Perm
      (Mnemonic.all.map fun k => (m.opcodeOf k).toNat) := by
  refine (List.perm_ext_iff_of_nodup (List.nodup_range.filter _) (OpcodeMap.opcodeNats_nodup hm)).mpr fun n => ?_
  simp only [List.mem_filter, List.mem_range, OpcodeMap.lookup_isSome, List.mem_map, Mnemonic.mem_all, true_and]
  constructor
  · rintro ⟨hn, k, hk⟩
    exact ⟨k, by rw [hk, BitVec.toNat_ofNat, Nat.mod_eq_of_lt hn]⟩
  · rintro ⟨k, rfl⟩
    exact ⟨(m.opcodeOf k).isLt, k, by rw [BitVec.ofNat_toNat, BitVec.setWidth_eq]⟩

/-- Under a legal map twenty of the 256 byte values are opcodes. -/
theorem OpcodeMap.countP_legal_opcodes {m : OpcodeMap} (hm : m.legal = true) :
    (List.range 256).countP (fun n => (m.lookup (BitVec.ofNat 8 n)).isSome) = 20 := by
  rw [List.countP_eq_length_filter, (OpcodeMap.opcodeNats_perm hm).length_eq, List.length_map]
  rfl

/-- Under a legal map 236 of the 256 byte values are no opcode. -/
theorem OpcodeMap.countP_illegal_opcodes {m : OpcodeMap} (hm : m.legal = true) :
    (List.range 256).countP (fun n => (m.lookup (BitVec.ofNat 8 n)).isNone) = 236 := by
  have hsum := List.length_eq_countP_add_countP (fun n => (m.lookup (BitVec.ofNat 8 n)).isSome) (l := List.range 256)
  simp only [List.length_range, OpcodeMap.countP_legal_opcodes hm, Bool.not_eq_true, Option.isSome_eq_false_iff,
    Bool.decide_eq_true] at hsum
  omega

end Sys2Proof

namespace Sys2Proof.Machine

/-- An opcode byte without a mnemonic is rejected before any operand byte is read. -/
theorem decodeFrom_of_illegal {m : OpcodeMap} {rd : Nat → Option Byte} {op : Byte} (h0 : rd 0 = some op)
    (hl : m.lookup op = none) : decodeFrom m rd = .error (.illegalOpcode op) := by
  simp [decodeFrom, h0, hl]

/-- A step that fetches an opcode byte without a mnemonic takes IllegalInstructionFault. -/
theorem step_of_illegal {s : State} {op : Byte} (hr : s.run = true) (h0 : s.codeByte 0 = some op)
    (hl : s.config.opcodes.lookup op = none) : step s = .next (s.raise (.illegalInstruction op)) :=
  step_of_reject hr (decodeFrom_of_illegal h0 hl)

/-- A fatal fault writes no register, no memory and no configuration. -/
theorem State.raise_frame (s : State) (c : FaultCause) : Frame [] [] s (s.raise c) where
  registers r _ := s.raise_reg c r
  memory a _ := s.raise_memRead c a
  config := s.raise_config c

theorem State.raise_keepsStreams (s : State) (c : FaultCause) : KeepsStreams s (s.raise c) :=
  ⟨s.raise_out c, s.raise_diag c⟩

end Sys2Proof.Machine
end

section
/-! O9: the illegal opcodes. -/

namespace Sys2Proof.Machine

/-- Settles O9: twenty byte values are opcodes, one for each mnemonic, and a step on another only raises. -/
theorem illegalOpcodesFault : Obligations.IllegalOpcodesFault := by
  refine ⟨fun m hm => OpcodeMap.countP_illegal_opcodes hm, fun m op => OpcodeMap.lookup_none, fun s op hr h0 hl => ?_⟩
  exact ⟨_, step_of_illegal hr h0 hl, rfl, rfl, rfl, rfl, s.raise_frame _, s.raise_keepsStreams _⟩

end Sys2Proof.Machine
end

section
/-! SUPPORT. The two faults of an instruction statement, whatever the instruction, and the frame of a register write
followed by the move of `pc` (60_exceptions.md R115, R116, 30_encoding.md R62). -/

namespace Sys2Proof.Machine

/-- Where an instruction does not end below the top of memory, the byte missing is the one at address 256. -/
theorem operandFetchFaults (i : Instr) : OperandFetchFaults i.mnemonic i.length := by
  intro s hr hm h0 hlen
  obtain ⟨k, hf, hk⟩ := State.fetch_short hm h0 hlen
  rw [step_of_reject hr hf, State.rejectCause, hk]
  rfl

/-- An instruction whose meaning begins with the check of `o` takes RegisterError on it when it is 8 to 255. -/
theorem takesRegisterError_of_withReg {i : Instr} {o : Byte} {k : State → Reg → State}
    (hi : ∀ s, exec i s = withReg o s (k s)) (ho : 7 < o.toNat) : TakesRegisterError i o := fun s => by
  rw [hi, withReg_bad (reg_eq_none.mpr ho)]

variable (s : State) (a : Reg) (v : Byte) (n : Nat)

theorem State.setReg_advance_reg : ((s.setReg a v).advance n).reg a = v := by
  rw [State.advance_reg, State.setReg_reg, if_pos rfl]

theorem State.setReg_advance_frame : Frame [a] [] s ((s.setReg a v).advance n) where
  registers r hr := by
    rw [State.advance_reg, State.setReg_reg, if_neg fun h => hr (List.mem_singleton.mpr h.symm)]
  memory _ _ := rfl
  config := rfl

theorem State.setReg_advance_keepsLatches : KeepsLatches s ((s.setReg a v).advance n) := ⟨rfl, rfl, rfl⟩

theorem State.setReg_advance_keepsStreams : KeepsStreams s ((s.setReg a v).advance n) := ⟨rfl, rfl⟩

@[simp] theorem exec_ldi_regByte : exec (.ldi (regByte a) v) s = .next ((s.setReg a v).advance 3) :=
  withReg_regByte a s _

end Sys2Proof.Machine
end

section
/-! O23: load-immediate. -/

namespace Sys2Proof.Machine

/-- Settles O23: on a legal register LDI is a register write and a move of `pc`; its faults are those of any
instruction with one checked operand and three bytes. -/
theorem loadImmediateEffect : Obligations.LoadImmediateEffect := by
  refine ⟨⟨rfl, fun _ _ _ => rfl⟩, fun a v s => ?_, fun o1 v ho => ?_, operandFetchFaults (.ldi 0 0)⟩
  · exact ⟨_, exec_ldi_regByte s a v, s.setReg_advance_reg a v 3, rfl, s.setReg_advance_frame a v 3,
      s.setReg_advance_keepsLatches a v 3, s.setReg_advance_keepsStreams a v 3⟩
  · exact takesRegisterError_of_withReg (fun _ => rfl) ho

end Sys2Proof.Machine
end

section
/-! SUPPORT. Setting `pc` alone, and the jumps on a legal register operand (43_control_transfer.md R84, R88 to R90). -/

namespace Sys2Proof.Machine

/-- Setting `pc`, as a jump and an advance do, writes nothing else. -/
theorem State.setPc_keepsRest (s : State) (t : Addr) :
    Frame [] [] s (s.setPc t) ∧ KeepsLatches s (s.setPc t) ∧ KeepsStreams s (s.setPc t) :=
  ⟨⟨fun _ _ => rfl, fun _ _ => rfl, rfl⟩, ⟨rfl, rfl, rfl⟩, rfl, rfl⟩

/-- A jump target is a byte, so widening it to an address keeps its value. -/
theorem State.jump_pc_toNat (s : State) (v : Byte) : (s.jump v).pc.toNat = v.toNat :=
  BitVec.toNat_setWidth_of_le (by decide)

/-- Of the values that `FL` takes, EQUAL is the one with bit 0 set. -/
theorem FlLegal.eq_equal_iff {f : Flags} (hf : FlLegal f) : f = 0b001#3 ↔ f.getLsbD 0 = true := by
  rcases hf with rfl | rfl | rfl | rfl <;> decide

variable {s : State} (a : Reg)

theorem exec_jeq_of_equal (h : s.fl = 0b001#3) : exec (.jeq (regByte a)) s = .next (s.jump (s.reg a)) := by
  rw [exec, execJeq, withReg_regByte, if_pos (State.isEqual_iff.mpr h)]

theorem exec_jeq_of_not_equal (h : s.fl ≠ 0b001#3) : exec (.jeq (regByte a)) s = .next (s.advance 2) := by
  rw [exec, execJeq, withReg_regByte, if_neg (mt State.isEqual_iff.mp h)]

theorem exec_jne_of_equal (h : s.fl = 0b001#3) : exec (.jne (regByte a)) s = .next (s.advance 2) := by
  rw [exec, execJne, withReg_regByte, if_pos (State.isEqual_iff.mpr h)]

theorem exec_jne_of_not_equal (h : s.fl ≠ 0b001#3) : exec (.jne (regByte a)) s = .next (s.jump (s.reg a)) := by
  rw [exec, execJne, withReg_regByte, if_neg (mt State.isEqual_iff.mp h)]

end Sys2Proof.Machine
end

section
/-! O32, O33 and O34: JMP, JEQ and JNE. -/

namespace Sys2Proof.Machine

/-- Settles O32: JMP is a jump to its operand byte, and no operand is checked. -/
theorem jumpEffect : Obligations.JumpEffect := by
  refine ⟨⟨rfl, fun _ _ => rfl⟩, fun v s => ?_, operandFetchFaults (.jmp 0)⟩
  exact ⟨s.jump v, rfl, s.jump_pc_toNat v, s.setPc_keepsRest _⟩

/-- Settles O33: the test of the whole latch decides between a jump and an advance; either way only `pc` is set. -/
theorem jumpIfEqualEffect : Obligations.JumpIfEqualEffect := by
  refine ⟨⟨rfl, fun _ _ => rfl⟩, fun a s => ?_, fun s hs => hs.eq_equal_iff, fun o1 ho => ?_,
    operandFetchFaults (.jeq 0)⟩
  · by_cases h : s.fl = 0b001#3
    · exact ⟨_, exec_jeq_of_equal a h, fun _ => s.jump_pc_toNat _, absurd h, s.setPc_keepsRest _⟩
    · exact ⟨_, exec_jeq_of_not_equal a h, fun he => absurd he h, fun _ => rfl, s.setPc_keepsRest _⟩
  · exact takesRegisterError_of_withReg (fun _ => rfl) ho

/-- Settles O34: JNE is JEQ with the two outcomes of the test exchanged, so exactly one of them is taken. -/
theorem jumpIfNotEqualEffect : Obligations.JumpIfNotEqualEffect := by
  refine ⟨⟨rfl, fun _ _ => rfl⟩, fun a s => ?_, fun a s => ?_, fun o1 ho => ?_, operandFetchFaults (.jne 0)⟩
  · by_cases h : s.fl = 0b001#3
    · exact ⟨_, exec_jne_of_equal a h, absurd h, fun _ => rfl, s.setPc_keepsRest _⟩
    · exact ⟨_, exec_jne_of_not_equal a h, fun _ => s.jump_pc_toNat _, fun he => absurd he h, s.setPc_keepsRest _⟩
  · by_cases h : s.fl = 0b001#3
    · exact ⟨_, _, exec_jeq_of_equal a h, exec_jne_of_equal a h, .inl ⟨rfl, rfl⟩⟩
    · exact ⟨_, _, exec_jeq_of_not_equal a h, exec_jne_of_not_equal a h, .inr ⟨rfl, rfl⟩⟩
  · exact takesRegisterError_of_withReg (fun _ => rfl) ho

end Sys2Proof.Machine
end

section
/-! SUPPORT. Everything a step can do to `FAULT` (60_exceptions.md R113, 30_encoding.md R62). -/

namespace Sys2Proof.Machine

/-- A step takes the fault of a failed fetch, takes RegisterError on an operand byte of the fetched instruction, or
keeps `FAULT`. -/
theorem step_fault {s t : State} (h : step s = .next t) :
    (∃ e, s.fetch = .error e ∧ t = s.raise (s.rejectCause e)) ∨
    (∃ i o, s.fetch = .ok i ∧ o ∈ i.regOperands ∧ reg o = none ∧ t = s.raise (.registerError o)) ∨
    t.fault = s.fault := by
  obtain ⟨-, ⟨i, hf, hi⟩ | hreject⟩ := step_next h
  · obtain ⟨o, ho, hmem, ht⟩ | hkeep := exec_fault hi
    · exact .inr (.inl ⟨i, o, hf, hmem, ho, ht⟩)
    · exact .inr (.inr hkeep)
  · exact .inl hreject

/-- A failed fetch raises AddressError or IllegalInstructionFault. -/
theorem State.rejectCause_ne_unsupportedOperation (s : State) (e : Reject) (op : String) :
    s.rejectCause e ≠ .unsupportedOperation op := by
  cases e <;> exact FaultCause.noConfusion

/-- The cause in `FAULT` after a fatal fault is the one raised. -/
theorem State.cause_of_raise_fault {s : State} {c c' : FaultCause} {p : Addr}
    (h : (s.raise c).fault = some ⟨c', p⟩) : c = c' :=
  congrArg FaultRecord.cause (Option.some.inj h)

end Sys2Proof.Machine
end

section
/-! O16: UnsupportedOperationError. -/

namespace Sys2Proof.Machine

/-- Settles O16: the two ways of raising a fault have other causes, so a step that ends with this one kept `FAULT`. -/
theorem unsupportedOperationNeverRaised : Obligations.UnsupportedOperationNeverRaised := by
  intro s t h op p ht
  rcases step_fault h with ⟨e, -, rfl⟩ | ⟨i, o, -, -, -, rfl⟩ | hkeep
  · exact absurd (State.cause_of_raise_fault ht) (s.rejectCause_ne_unsupportedOperation e op)
  · exact absurd (State.cause_of_raise_fault ht) FaultCause.noConfusion
  · exact hkeep

end Sys2Proof.Machine
end

section
/-! SUPPORT. The instructions with two register operands, and those of them whose meaning is `binary` of a function on
bytes (44_alu.md R92). -/

namespace Sys2Proof.Machine

section
variable {i : Instr} {o1 o2 : Byte} {k : State → Reg → Reg → State}

/-- An instruction whose meaning checks `o1` first takes RegisterError on it when it is 8 to 255, whatever `o2` is. -/
theorem takesRegisterError_of_withRegs_first (hi : ∀ s, exec i s = withRegs o1 o2 s (k s)) (ho : 7 < o1.toNat) :
    TakesRegisterError i o1 := fun s => by
  rw [hi, withRegs_bad_first (reg_eq_none.mpr ho)]

/-- With a legal first operand it takes RegisterError on the second when that is 8 to 255. -/
theorem takesRegisterError_of_withRegs_second {a : Reg} (hi : ∀ s, exec i s = withRegs (regByte a) o2 s (k s))
    (ho : 7 < o2.toNat) : TakesRegisterError i o2 := fun s => by
  rw [hi, withRegs_bad_second (reg_eq_none.mpr ho)]

end

section
variable {k : Mnemonic} {mk : Byte → Byte → Instr} (hk : k.form = .f2 mk)
include hk

/-- What a format with two operand bytes builds. -/
theorem builds_of_form_f2 (o1 o2 : Byte) : (mk o1 o2).mnemonic = k ∧ (mk o1 o2).operandBytes = [o1, o2] := by
  have hb := k.form_builds
  rw [hk] at hb
  exact hb o1 o2

theorem encode_of_form_f2 (m : OpcodeMap) (o1 o2 : Byte) : encode m (mk o1 o2) = [m.opcodeOf k, o1, o2] := by
  obtain ⟨hmnemonic, hbytes⟩ := builds_of_form_f2 hk o1 o2
  rw [encode, hmnemonic, hbytes]

theorem operandFetchFaults_of_form_f2 : OperandFetchFaults k 3 := by
  obtain ⟨hmnemonic, hbytes⟩ := builds_of_form_f2 hk 0 0
  have h := operandFetchFaults (mk 0 0)
  rwa [Instr.length_eq, hmnemonic, hbytes] at h

end

/-- An instruction whose meaning is `binary f` has the effect of a two-operand ALU instruction, for every relation that
`f` meets on bytes. -/
theorem aluEffect_of_binary {k : Mnemonic} {mk : Byte → Byte → Instr} {f : Byte → Byte → Byte}
    {rel : Byte → Byte → Byte → Prop} (hk : k.form = .f2 mk) (hexec : ∀ o1 o2 s, exec (mk o1 o2) s = binary f o1 o2 s)
    (hf : ∀ u v, rel u v (f u v)) : AluEffect k mk rel := by
  refine ⟨encode_of_form_f2 hk, fun a b s => ?_,
    fun o1 o2 => takesRegisterError_of_withRegs_first (hexec o1 o2),
    fun a o2 => takesRegisterError_of_withRegs_second (hexec (regByte a) o2), operandFetchFaults_of_form_f2 hk⟩
  refine ⟨_, (hexec _ _ s).trans (binary_regByte f a b s), ?_, rfl, s.setReg_advance_frame a _ 3,
    s.setReg_advance_keepsLatches a _ 3, s.setReg_advance_keepsStreams a _ 3⟩
  rw [State.setReg_advance_reg]
  exact hf (s.reg a) (s.reg b)

/-- `255 - u` is the complement of `u`. -/
theorem aluNot_eq (u : Byte) : aluNot u = ~~~u :=
  BitVec.eq_of_toNat_eq (by rw [aluNot_toNat, BitVec.toNat_not])

end Sys2Proof.Machine
end

section
/-! O37 to O42: ADD, MUL, AND, OR, XOR and NOT. -/

namespace Sys2Proof.Machine

/-- Settles O37: ADD is `binary` of the truncated sum. -/
theorem addEffect : Obligations.AddEffect :=
  ⟨rfl, aluEffect_of_binary (f := aluAdd) rfl (fun _ _ _ => rfl) fun u v => trunc8_toNat (u.toNat + v.toNat)⟩

/-- Settles O38: MUL is `binary` of the truncated product. -/
theorem mulEffect : Obligations.MulEffect :=
  ⟨rfl, aluEffect_of_binary (f := aluMul) rfl (fun _ _ _ => rfl) fun u v => trunc8_toNat (u.toNat * v.toNat)⟩

/-- Settles O39: AND is `binary` of the bytes' conjunction, which is taken bit by bit. -/
theorem andEffect : Obligations.AndEffect :=
  ⟨rfl, aluEffect_of_binary (f := aluAnd) rfl (fun _ _ _ => rfl) fun _ _ _ _ => BitVec.getLsbD_and⟩

/-- Settles O40: OR is `binary` of the bytes' disjunction, which is taken bit by bit. -/
theorem orEffect : Obligations.OrEffect :=
  ⟨rfl, aluEffect_of_binary (f := aluOr) rfl (fun _ _ _ => rfl) fun _ _ _ _ => BitVec.getLsbD_or⟩

/-- Settles O41: XOR is `binary` of the bytes' exclusive or, which is taken bit by bit. -/
theorem xorEffect : Obligations.XorEffect :=
  ⟨rfl, aluEffect_of_binary (f := aluXor) rfl (fun _ _ _ => rfl) fun _ _ _ _ => BitVec.getLsbD_xor⟩

/-- Settles O42: NOT writes `255 - x[a]`, which is the complement of the byte. -/
theorem notEffect : Obligations.NotEffect := by
  refine ⟨⟨rfl, fun _ _ => rfl⟩, fun a s => ?_, fun o1 ho => ?_, operandFetchFaults (.not 0)⟩
  · refine ⟨_, exec_not_regByte s a, ?_, fun i hi => ?_, rfl, s.setReg_advance_frame a _ 2,
      s.setReg_advance_keepsLatches a _ 2, s.setReg_advance_keepsStreams a _ 2⟩
    · rw [State.setReg_advance_reg, aluNot_toNat]
    · rw [State.setReg_advance_reg, aluNot_eq, BitVec.getLsbD_not, decide_eq_true hi, Bool.true_and]
  · exact takesRegisterError_of_withReg (fun _ => rfl) ho

end Sys2Proof.Machine
end

section
/-! SUPPORT. The opcode fetch at `pc = 256` (60_exceptions.md R116), the next state of every instruction and of every
running machine (30_encoding.md R62, R67), and the instructions without a register operand (R115). -/

namespace Sys2Proof.Machine

variable {s t : State}

/-- At `pc = 256` there is no opcode byte. -/
theorem State.fetch_at_top (hpc : s.pc = 256) : s.fetch = .error (.missingByte 0) := by
  have h0 : s.codeByte 0 = none := State.codeByte_none.mpr (by rw [hpc]; decide)
  rw [State.fetch, decodeFrom, h0]

/-- The opcode fetch at `pc = 256` takes AddressError with that address. -/
theorem step_at_top (hr : s.run = true) (hpc : s.pc = 256) : step s = .next (s.raise (.addressError 256)) := by
  rw [step_of_reject hr (State.fetch_at_top hpc), State.rejectCause, hpc]
  rfl

/-- Every instruction answers a next state, whatever its operand bytes. -/
theorem exec_answers (i : Instr) (s : State) : ∃ t, exec i s = .next t := by
  cases i
  case hlt | ret | jmp => exact ⟨_, rfl⟩
  case ldi | prn | push | pop | call | jeq | jne | not => exact withReg_answers _ _ _
  case cmp | and | or | xor | shl | shr | mod | add | mul => exact withRegs_answers _ _ _ _

/-- A running machine has a next step: the fetched instruction, or the fault of a failed fetch. -/
theorem step_answers (hr : s.run = true) : ∃ t, step s = .next t := by
  cases hf : s.fetch with
  | ok i => exact step_of_fetch hr hf ▸ exec_answers i s
  | error e => exact ⟨_, step_of_reject hr hf⟩

/-- An instruction without a register operand keeps `FAULT`. -/
theorem exec_keeps_fault {i : Instr} (hi : i.regOperands = []) (h : exec i s = .next t) : t.fault = s.fault := by
  refine (exec_fault h).resolve_left fun ⟨o, _, ho, _⟩ => ?_
  rw [hi] at ho
  exact List.not_mem_nil ho

end Sys2Proof.Machine
end

section
/-! O13 and O14: RegisterError and AddressError. -/

namespace Sys2Proof.Machine

/-- Settles O13: every listed meaning begins with the check of its first register operand, then of its second. -/
theorem registerErrorForms : Obligations.RegisterErrorForms := by
  refine ⟨fun o v ho i hi => ?_, fun o p ho i hi => ?_, fun a p hp i hi => ?_, fun v i hi s => ?_,
    fun _ _ => ⟨rfl, rfl⟩⟩
  · fin_cases hi <;> exact takesRegisterError_of_withReg (fun _ => rfl) ho
  · fin_cases hi <;> exact takesRegisterError_of_withRegs_first (fun _ => rfl) ho
  · fin_cases hi <;> exact takesRegisterError_of_withRegs_second (fun _ => rfl) hp
  · obtain ⟨t, h⟩ := exec_answers i s
    have hregs : i.regOperands = [] := by fin_cases hi <;> rfl
    exact ⟨t, h, exec_keeps_fault hregs h⟩

/-- Settles O14: each failed fetch misses the byte at address 256, and the only fault an instruction raises once fetched
is RegisterError. -/
theorem addressErrorForms : Obligations.AddressErrorForms := by
  refine ⟨fun s => step_at_top, fun s i hr hm hpc h0 hlen => ?_, fun s i hr hm hpc h0 hlen => ?_,
    fun _ _ => ⟨rfl, rfl⟩, fun i s t h a p ht => ?_⟩
  · have hpc : s.pc.toNat = 255 := congrArg BitVec.toNat hpc
    exact operandFetchFaults i s hr hm h0 (by omega)
  · have hpc : s.pc.toNat = 254 := congrArg BitVec.toNat hpc
    exact operandFetchFaults i s hr hm h0 (by omega)
  · rcases exec_fault h with ⟨o, -, -, rfl⟩ | hkeep
    · exact absurd (State.cause_of_raise_fault ht) FaultCause.noConfusion
    · exact hkeep

end Sys2Proof.Machine
end

section
/-! SUPPORT. MOD by zero, and who writes `DIAG` (60_exceptions.md R118). -/

namespace Sys2Proof.Machine

variable {s t : State}

/-- MOD on legal registers with divisor 0 reports the event and moves `pc`. -/
theorem exec_mod_of_zero (a : Reg) {b : Reg} (hb : s.reg b = 0#8) :
    exec (.mod (regByte a) (regByte b)) s = .next ((s.report (.divideByZero s.pc)).advance 3) := by
  rw [exec, execMod, withRegs_regByte, if_pos hb]

theorem State.report_advance_frame (s : State) (e : DiagEvent) (n : Nat) : Frame [] [] s ((s.report e).advance n) where
  registers _ _ := rfl
  memory _ _ := rfl
  config := rfl

/-- What a one-register instruction's meaning and a fatal fault both keep is kept on every operand byte. -/
theorem withReg_keeps {α : Type} (f : State → α) {o : Byte} {k : Reg → State} (h : withReg o s k = .next t)
    (hraise : ∀ c, f (s.raise c) = f s) (hk : ∀ a, f (k a) = f s) : f t = f s := by
  rcases withReg_next h with ⟨a, -, rfl⟩ | ⟨-, rfl⟩
  · exact hk a
  · exact hraise _

/-- What a two-register instruction's meaning and a fatal fault both keep is kept on every pair of operand bytes. -/
theorem withRegs_keeps {α : Type} (f : State → α) {o1 o2 : Byte} {k : Reg → Reg → State}
    (h : withRegs o1 o2 s k = .next t) (hraise : ∀ c, f (s.raise c) = f s) (hk : ∀ a b, f (k a b) = f s) :
    f t = f s := by
  rcases withRegs_next h with ⟨a, b, -, -, rfl⟩ | ⟨-, rfl⟩ | ⟨a, -, -, rfl⟩
  · exact hk a b
  · exact hraise _
  · exact hraise _

/-- Everything an instruction can do to `DIAG`: keep it, or be MOD on two registers of which the second is 0. -/
theorem exec_diag {i : Instr} (h : exec i s = .next t) :
    t.diag = s.diag ∨ ∃ a b, i = .mod (regByte a) (regByte b) ∧ s.reg b = 0#8 := by
  cases i
  case mod o1 o2 =>
    rcases withRegs_next h with ⟨a, b, rfl, rfl, rfl⟩ | ⟨-, rfl⟩ | ⟨a, -, -, rfl⟩
    · by_cases hb : s.reg b = 0#8
      · exact .inr ⟨a, b, rfl, hb⟩
      · exact .inl (by rw [if_neg hb]; rfl)
    · exact .inl rfl
    · exact .inl rfl
  all_goals left
  case hlt | ret | jmp => cases h; rfl
  case ldi | prn | push | pop | call | not => exact withReg_keeps State.diag h s.raise_diag fun _ => rfl
  case jeq | jne => exact withReg_keeps State.diag h s.raise_diag fun _ => by split <;> rfl
  case cmp | and | or | xor | shl | shr | add | mul =>
    exact withRegs_keeps State.diag h s.raise_diag fun _ _ => rfl

end Sys2Proof.Machine
end

section
/-! O46: DivideByZeroFault. -/

namespace Sys2Proof.Machine

/-- Settles O46: MOD by zero only reports and moves `pc`, so the machine goes on; `exec_diag` says that nothing else
writes `DIAG`. -/
theorem divideByZeroIsReportedByModAlone : Obligations.DivideByZeroIsReportedByModAlone := by
  refine ⟨fun a b s hb => ?_, fun s t h hne => ?_⟩
  · exact ⟨_, exec_mod_of_zero a hb, rfl, rfl, rfl, s.report_advance_frame _ 3, ⟨rfl, rfl, rfl⟩,
      fun hr => step_answers hr⟩
  · obtain ⟨-, ⟨i, hf, hi⟩ | ⟨e, -, rfl⟩⟩ := step_next h
    · obtain ⟨a, b, rfl, hb⟩ := (exec_diag hi).resolve_left hne
      exact ⟨a, b, hf, hb⟩
    · exact absurd (s.raise_diag _) hne

end Sys2Proof.Machine
end

section
/-! SUPPORT. What an instruction can do to the configuration, `RUN` and `pc` (00_scope.md R8, 10_state.md R20, R24), and
where a fetched instruction ends. `exec_mem`, `exec_fl` and `exec_fault` say it of the other parts. -/

namespace Sys2Proof

/-- An instruction is one to three bytes long. -/
theorem Instr.length_bounds (i : Instr) : 1 ≤ i.length ∧ i.length ≤ 3 := by cases i <;> simp [Instr.length]

theorem encode_length (m : OpcodeMap) (i : Instr) : (encode m i).length = i.length := by
  rw [encode, List.length_cons, Instr.length_eq]

end Sys2Proof

namespace Sys2Proof.Machine

variable {s t : State}

/-- What the RegisterErrors and the meanings of a one-register instruction all meet, its next state meets. -/
theorem withReg_meets (P : State → Prop) {o : Byte} {k : Reg → State} (h : withReg o s k = .next t)
    (hraise : ∀ c, P (s.raise c)) (hk : ∀ a, P (k a)) : P t := by
  rcases withReg_next h with ⟨a, -, rfl⟩ | ⟨-, rfl⟩
  · exact hk a
  · exact hraise _

/-- What the RegisterErrors and the meanings of a two-register instruction all meet, its next state meets. -/
theorem withRegs_meets (P : State → Prop) {o1 o2 : Byte} {k : Reg → Reg → State} (h : withRegs o1 o2 s k = .next t)
    (hraise : ∀ c, P (s.raise c)) (hk : ∀ a b, P (k a b)) : P t := by
  rcases withRegs_next h with ⟨a, b, -, -, rfl⟩ | ⟨-, rfl⟩ | ⟨a, -, -, rfl⟩
  · exact hk a b
  · exact hraise _
  · exact hraise _

/-- No instruction writes the configuration. -/
theorem exec_config {i : Instr} (h : exec i s = .next t) : t.config = s.config := by
  cases i
  case hlt | ret | jmp => cases h; rfl
  case ldi | prn | push | pop | call | not => exact withReg_keeps State.config h s.raise_config fun _ => rfl
  case jeq | jne => exact withReg_keeps State.config h s.raise_config fun _ => by split <;> rfl
  case mod => exact withRegs_keeps State.config h s.raise_config fun _ _ => by split <;> rfl
  case cmp | and | or | xor | shl | shr | add | mul =>
    exact withRegs_keeps State.config h s.raise_config fun _ _ => rfl

/-- No step writes the configuration. -/
theorem step_config (h : step s = .next t) : t.config = s.config := by
  obtain ⟨-, ⟨i, -, hi⟩ | ⟨e, -, rfl⟩⟩ := step_next h
  · exact exec_config hi
  · exact s.raise_config _

/-- From `s` to `t` the instruction took a fatal fault and did nothing else, was HLT, or kept `RUN`. -/
def RaisesStopsOrKeepsRun (i : Instr) (s t : State) : Prop :=
  (∃ c, t = s.raise c) ∨ (i = .hlt ∧ t = s.stop) ∨ t.run = s.run

/-- Everything an instruction can do to `RUN`. -/
theorem exec_run {i : Instr} (h : exec i s = .next t) : RaisesStopsOrKeepsRun i s t := by
  have hraise : ∀ i c, RaisesStopsOrKeepsRun i s (s.raise c) := fun i c => .inl ⟨c, rfl⟩
  cases i
  case hlt => cases h; exact .inr (.inl ⟨rfl, rfl⟩)
  case ret | jmp => cases h; exact .inr (.inr rfl)
  case ldi | prn | push | pop | call | not => exact withReg_meets _ h (hraise _) fun _ => .inr (.inr rfl)
  case jeq | jne => exact withReg_meets _ h (hraise _) fun _ => .inr (.inr (by split <;> rfl))
  case mod => exact withRegs_meets _ h (hraise _) fun _ _ => .inr (.inr (by split <;> rfl))
  case cmp | and | or | xor | shl | shr | add | mul =>
    exact withRegs_meets _ h (hraise _) fun _ _ => .inr (.inr rfl)

/-- The instruction sends control to an address of its own: CALL, RET, JMP, a taken JEQ or JNE. -/
def Transfers (s : State) : Instr → Prop
  | .call _ | .ret | .jmp _ => True
  | .jeq _ => s.fl = 0b001#3
  | .jne _ => s.fl ≠ 0b001#3
  | _ => False

/-- From `s` to `t` the instruction stopped the machine where it was, advanced by its own length, or went to an address
held in a byte. -/
def StaysAdvancesOrTransfers (i : Instr) (s t : State) : Prop :=
  (t.run = false ∧ t.pc = s.pc) ∨ (t.pc = s.pc + BitVec.ofNat 9 i.length ∧ 2 ≤ i.length) ∨
    (Transfers s i ∧ ∃ v : Byte, t.pc = v.setWidth 9)

/-- Everything an instruction can do to `pc`. -/
theorem exec_pc {i : Instr} (h : exec i s = .next t) : StaysAdvancesOrTransfers i s t := by
  have hraise : ∀ i c, StaysAdvancesOrTransfers i s (s.raise c) := fun i c => .inl ⟨rfl, rfl⟩
  cases i
  case hlt => cases h; exact .inl ⟨rfl, rfl⟩
  case ret | jmp => cases h; exact .inr (.inr ⟨trivial, _, rfl⟩)
  case call => exact withReg_meets _ h (hraise _) fun _ => .inr (.inr ⟨trivial, _, rfl⟩)
  case jeq =>
    refine withReg_meets _ h (hraise _) fun a => ?_
    split
    · next he => exact .inr (.inr ⟨State.isEqual_iff.mp he, _, rfl⟩)
    · exact .inr (.inl ⟨rfl, le_rfl⟩)
  case jne =>
    refine withReg_meets _ h (hraise _) fun a => ?_
    split
    · exact .inr (.inl ⟨rfl, le_rfl⟩)
    · next he => exact .inr (.inr ⟨mt State.isEqual_iff.mpr he, _, rfl⟩)
  case ldi => exact withReg_meets _ h (hraise _) fun _ => .inr (.inl ⟨rfl, Nat.le_succ 2⟩)
  case prn | push | pop | not => exact withReg_meets _ h (hraise _) fun _ => .inr (.inl ⟨rfl, le_rfl⟩)
  case mod => exact withRegs_meets _ h (hraise _) fun _ _ => .inr (.inl ⟨by split <;> rfl, Nat.le_succ 2⟩)
  case cmp | and | or | xor | shl | shr | add | mul =>
    exact withRegs_meets _ h (hraise _) fun _ _ => .inr (.inl ⟨rfl, Nat.le_succ 2⟩)

/-- An address held in a byte is below 256. -/
theorem setWidth_toNat_lt (v : Byte) : (v.setWidth 9 : Addr).toNat < 256 := by
  rw [BitVec.toNat_setWidth_of_le (by decide)]
  exact v.isLt

/-- A fetched instruction stands whole at `pc`. -/
theorem State.holds_of_fetch {i : Instr} (hf : s.fetch = .ok i) : s.Holds i := (decodeFrom_ok hf).2

/-- An instruction that stands whole at `pc` ends at address 255 or below. -/
theorem State.Holds.fits {i : Instr} (h : s.Holds i) : s.pc.toNat + i.length ≤ 256 := by
  have hlen := i.length_bounds.1
  have hlast := h (i.length - 1) (by omega)
  have hencoded : i.length - 1 < (encode s.config.opcodes i).length := by
    rw [encode_length]
    omega
  rw [List.getElem?_eq_getElem hencoded] at hlast
  have hexists : ¬ 255 < s.pc.toNat + (i.length - 1) := fun hc => by
    rw [State.codeByte_none.mpr hc] at hlast
    cases hlast
  omega

/-- Advancing over an instruction that stands whole at `pc` does not wrap. -/
theorem State.Holds.advance_toNat {i : Instr} (h : s.Holds i) :
    (s.pc + BitVec.ofNat 9 i.length).toNat = s.pc.toNat + i.length := by
  have hfits := h.fits
  rw [BitVec.toNat_add, BitVec.toNat_ofNat]
  omega

end Sys2Proof.Machine
end

section
/-! O4: the invariant. One lemma for each way of a step, and each part of the invariant that an instruction can
touch. -/

namespace Sys2Proof.Machine

variable {s t : State}

/-- An instruction keeps the canonical form of memory: all it writes is one cell at an address held in a byte. -/
theorem exec_mem_wf {i : Instr} (hs : Memory.wf s.mem) (h : exec i s = .next t) : Memory.wf t.mem := by
  rcases exec_mem h with hm | ⟨a, -, hm⟩ | ⟨a, -, hm⟩ <;> rw [hm]
  · exact hs
  · exact Memory.write_wf hs (BitVec.isLt _) _
  · exact Memory.write_wf hs (BitVec.isLt _) _

/-- An instruction keeps `FL` among its four values. -/
theorem exec_flLegal {i : Instr} (hs : FlLegal s.fl) (h : exec i s = .next t) : FlLegal t.fl := by
  rcases exec_fl h with hfl | ⟨a, b, -, hfl⟩ <;> rw [hfl]
  · exact hs
  · exact compareFlags_legal _ _

/-- A fetched instruction keeps `pc` at most 256: it ends there at the latest, and a transfer goes below. -/
theorem exec_pcRange {i : Instr} (hf : s.fetch = .ok i) (hs : s.pc.toNat ≤ 256) (h : exec i s = .next t) :
    t.pc.toNat ≤ 256 := by
  rcases exec_pc h with ⟨-, hpc⟩ | ⟨hpc, -⟩ | ⟨-, v, hpc⟩ <;> rw [hpc]
  · exact hs
  · rw [(State.holds_of_fetch hf).advance_toNat]
    exact (State.holds_of_fetch hf).fits
  · exact (setWidth_toNat_lt v).le

/-- A failed fetch has a cause that the FAULT record can tell: a missing byte is the one at 256. -/
theorem State.rejectCause_possible {e : Reject} (hpc : s.pc.toNat ≤ 256) (hf : s.fetch = .error e) :
    (s.rejectCause e).Possible s.config.opcodes := by
  cases e with
  | illegalOpcode op => exact (decodeFrom_illegal hf).2
  | missingByte k =>
    obtain ⟨hmissing, hbefore⟩ := State.fetch_missing hf
    have htop : s.pc.toNat + k = 256 := by
      rcases Nat.eq_zero_or_pos k with rfl | hk
      · omega
      · have := hbefore (k - 1) (by omega)
        omega
    show BitVec.ofNat 9 (s.pc.toNat + k) = 256
    rw [htop]
    rfl

/-- A fatal fault with a possible cause keeps the invariant. -/
theorem State.Inv.of_raise (hs : s.Inv) {c : FaultCause} (hc : c.Possible s.config.opcodes) : (s.raise c).Inv where
  memCanonical := hs.memCanonical
  pcRange := hs.pcRange
  flLegal := hs.flLegal
  mapLegal := hs.mapLegal
  runningUnfaulted hr := nomatch hr
  faultRecorded r hr := by
    cases hr
    exact ⟨rfl, hc⟩

/-- A fetched instruction keeps the invariant of a running machine. -/
theorem State.Inv.of_exec {i : Instr} (hs : s.Inv) (hr : s.run = true) (hf : s.fetch = .ok i) (h : exec i s = .next t) :
    t.Inv := by
  rcases exec_fault h with ⟨o, ho, -, rfl⟩ | hkeep
  · exact hs.of_raise (reg_eq_none.mp ho)
  have hnone : t.fault = none := hkeep.trans (hs.runningUnfaulted hr)
  exact {
    memCanonical := exec_mem_wf hs.memCanonical h
    pcRange := exec_pcRange hf hs.pcRange h
    flLegal := exec_flLegal hs.flLegal h
    mapLegal := (exec_config h) ▸ hs.mapLegal
    runningUnfaulted := fun _ => hnone
    faultRecorded := fun r hrec => by
      rw [hnone] at hrec
      cases hrec }

/-- Settles O4: a step executes the fetched instruction or takes the fault of a failed fetch, and both keep the
invariant. -/
theorem stepKeepsInvariant : Obligations.StepKeepsInvariant := by
  intro s t hs h
  obtain ⟨hr, ⟨i, hf, hi⟩ | ⟨e, hf, rfl⟩⟩ := step_next h
  · exact hs.of_exec hr hf hi
  · exact hs.of_raise (State.rejectCause_possible hs.pcRange hf)

end Sys2Proof.Machine
end

section
/-! O7 and O8: decoding and encoding. -/

namespace Sys2Proof.Machine

/-- Settles O7: a legal map finds the mnemonic under its byte, and the operand bytes are read where they were put. -/
theorem decodeEncodeRoundTrip : Obligations.DecodeEncodeRoundTrip := by
  intro m i rest hm
  refine decodeFrom_of_bytes (OpcodeMap.lookup_opcodeOf hm i.mnemonic) fun k hk => ?_
  exact List.getElem?_append_left (by rwa [encode_length])

/-- Settles O8: `decodeFrom_ok` says that the bytes read are those of the encoding. -/
theorem decodedBytesAreTheEncoding : Obligations.DecodedBytesAreTheEncoding := by
  intro m bytes i h
  have hstart : encode m i <+: bytes := List.prefix_iff_getElem?.mpr fun k hk => by
    rw [(decodeFrom_ok h).2 k (by rwa [← encode_length m]), List.getElem?_eq_getElem hk]
  obtain ⟨rest, hrest⟩ := hstart
  exact ⟨rest, hrest.symm⟩

end Sys2Proof.Machine
end

section
/-! SUPPORT. The order of the checks of a step (30_encoding.md R62, 60_exceptions.md section 3). -/

namespace Sys2Proof.Machine

variable {s : State}

/-- Under a legal map, an instruction that stands whole at `pc` is the one fetched. -/
theorem State.Holds.fetch {i : Instr} (hm : s.config.opcodes.legal = true) (h : s.Holds i) : s.fetch = .ok i :=
  decodeFrom_of_bytes (OpcodeMap.lookup_opcodeOf hm i.mnemonic) h

/-- Of one operand byte, the first bad one is that byte. -/
theorem withReg_of_firstBad {o1 o : Byte} {k : Reg → State} (h : [o1].find? (fun o => 7 < o.toNat) = some o) :
    withReg o1 s k = .next (s.raise (.registerError o)) := by
  have hbad : 7 < o.toNat := by simpa using List.find?_some h
  obtain rfl := List.mem_singleton.mp (List.mem_of_find?_eq_some h)
  exact withReg_bad (reg_eq_none.mpr hbad) s k

/-- Of two operand bytes, the first bad one is the first byte, or the second after a legal first. -/
theorem withRegs_of_firstBad {o1 o2 o : Byte} {k : Reg → Reg → State}
    (h : [o1, o2].find? (fun o => 7 < o.toNat) = some o) :
    withRegs o1 o2 s k = .next (s.raise (.registerError o)) := by
  cases h1 : reg o1 with
  | none =>
    rw [List.find?_cons_of_pos (by simpa using reg_eq_none.mp h1)] at h
    cases h
    exact withRegs_bad_first h1 o2 s k
  | some a =>
    have hlegal : ¬ 7 < o1.toNat := fun hc => by rw [reg_eq_none.mpr hc] at h1; cases h1
    rw [List.find?_cons_of_neg (by simpa using hlegal)] at h
    rw [withRegs, h1]
    exact withReg_of_firstBad h

/-- An instruction with a bad register operand takes RegisterError on the first of them. -/
theorem exec_of_firstBad {i : Instr} {o : Byte} (h : i.regOperands.find? (fun o => 7 < o.toNat) = some o) :
    exec i s = .next (s.raise (.registerError o)) := by
  cases i
  case hlt | ret | jmp => cases h
  case ldi | prn | push | pop | call | jeq | jne | not => exact withReg_of_firstBad h
  case cmp | and | or | xor | shl | shr | mod | add | mul => exact withRegs_of_firstBad h

/-- An instruction without a bad register operand keeps `FAULT`. -/
theorem exec_keeps_fault_of_legal {i : Instr} {t : State} (hi : i.regOperands.find? (fun o => 7 < o.toNat) = none)
    (h : exec i s = .next t) : t.fault = s.fault := by
  refine (exec_fault h).resolve_left fun ⟨o, ho, hmem, _⟩ => ?_
  exact List.find?_eq_none.mp hi o hmem (decide_eq_true (reg_eq_none.mp ho))

end Sys2Proof.Machine
end

section
/-! O10, O11 and O12: fetching, the decoded instruction, and the order of the checks. -/

namespace Sys2Proof.Machine

/-- Settles O10: `0xFF` is in no legal map, and `0x00` is not in the default one. -/
theorem allOnesAndEmptyMemoryAreIllegal : Obligations.AllOnesAndEmptyMemoryAreIllegal := by
  refine ⟨fun s hr hm h0 => step_of_illegal hr h0 (OpcodeMap.lookup_ff hm), ?_⟩
  have hzero : State.reset.config.opcodes.lookup 0x00 = none := by decide
  exact step_of_illegal rfl rfl hzero

/-- The bytes listed from `pc` up are those that the fetch reads: where one is missing, so are the later ones. -/
theorem State.codeBytes_getElem? {s : State} {k : Nat} (hk : k < 3) : s.codeBytes[k]? = s.codeByte k := by
  have hlater : ∀ j, s.codeByte j = none → s.codeByte (j + 1) = none := fun j hj => by
    rw [State.codeByte_none] at hj ⊢
    omega
  cases h0 : s.codeByte 0 with
  | none =>
    have h1 := hlater 0 h0
    have h2 := hlater 1 h1
    interval_cases k <;> simp [State.codeBytes, h0, h1, h2]
  | some b0 =>
    cases h1 : s.codeByte 1 with
    | none =>
      have h2 := hlater 1 h1
      interval_cases k <;> simp [State.codeBytes, h0, h1, h2]
    | some b1 => cases h2 : s.codeByte 2 <;> interval_cases k <;> simp [State.codeBytes, h0, h1, h2]

/-- Settles O11: what decodes from the listed bytes is fetched, since the decoder reads no byte but the instruction's
own. -/
theorem stepRunsTheDecodedInstruction : Obligations.StepRunsTheDecodedInstruction := by
  intro s i hr h
  obtain ⟨hl, hbytes⟩ := decodeFrom_ok h
  refine step_of_fetch hr (decodeFrom_of_bytes hl fun k hk => ?_)
  rw [← hbytes k hk, State.codeBytes_getElem? (hk.trans_le i.length_bounds.2)]

/-- Settles O12: too few bytes are found by the fetch, which comes before the instruction's own check of its
operands. -/
theorem checksAreMadeInOrder : Obligations.ChecksAreMadeInOrder := by
  intro s i hr hm
  refine ⟨operandFetchFaults i s hr hm, fun hi => ?_⟩
  have hstep := step_of_fetch hr (hi.fetch hm)
  split
  · next o ho => rw [hstep, exec_of_firstBad ho]
  · next hnone =>
    obtain ⟨t, h⟩ := exec_answers i s
    exact ⟨t, hstep.trans h, h, exec_keeps_fault_of_legal hnone h⟩

end Sys2Proof.Machine
end

section
/-! O15, O17, O18, O19 and O22: faults, stops, and the instructions' answers. -/

namespace Sys2Proof.Machine

variable {s t : State}

/-- A step that changes `FAULT` only raises. -/
theorem step_raises (h : step s = .next t) (hne : t.fault ≠ s.fault) : ∃ c, t = s.raise c := by
  rcases step_fault h with ⟨e, -, rfl⟩ | ⟨i, o, -, -, -, rfl⟩ | hkeep
  · exact ⟨_, rfl⟩
  · exact ⟨_, rfl⟩
  · exact absurd hkeep hne

/-- Settles O15: such a step only raises, which writes `RUN` and `FAULT` alone. -/
theorem fatalFaultIsPrecise : Obligations.FatalFaultIsPrecise := by
  intro s t h hne
  obtain ⟨c, rfl⟩ := step_raises h hne
  exact ⟨rfl, ⟨c, rfl⟩, rfl, rfl, rfl, s.raise_frame c, s.raise_keepsStreams c⟩

/-- A stopped machine answers why it has no step. -/
theorem step_of_stopped (hr : s.run = false) : step s = .fault s.stopReason := by simp [step, hr]

/-- Settles O17: a stopped machine tells its stop reason, and a running one always answers. -/
theorem stepExistsExactlyWhileRunning : Obligations.StepExistsExactlyWhileRunning := by
  refine ⟨fun s hr hf => ?_, fun s r hr hf => ?_, fun s => step_answers⟩ <;>
    rw [step_of_stopped hr, State.stopReason, hf]

/-- Settles O18: of everything an instruction can do to `RUN`, only HLT and a fatal fault stop a running machine. -/
theorem onlyHltOrFatalFaultStops : Obligations.OnlyHltOrFatalFaultStops := by
  intro s t h ht
  obtain ⟨hr, ⟨i, hf, hi⟩ | ⟨e, -, rfl⟩⟩ := step_next h
  · rcases exec_run hi with hraise | ⟨rfl, hstop⟩ | hkeep
    · exact .inr hraise
    · exact .inl ⟨hf, hstop⟩
    · rw [hkeep, hr] at ht
      cases ht
  · exact .inr ⟨_, rfl⟩

/-- Settles O19: every meaning answers a next state on good and on bad operands. -/
theorem everyInstructionAnswers : Obligations.EveryInstructionAnswers := exec_answers

/-- HLT clears `RUN` and writes nothing else. -/
theorem State.stop_frame (s : State) : Frame [] [] s s.stop where
  registers r _ := s.stop_reg r
  memory a _ := s.stop_memRead a
  config := s.stop_config

/-- Settles O22: HLT is `State.stop`. -/
theorem haltStopsAndKeepsState : Obligations.HaltStopsAndKeepsState :=
  ⟨⟨rfl, fun _ => rfl⟩, fun s =>
    ⟨s.stop, rfl, s.stop_run, s.stop_fault, s.stop_pc, s.stop_fl, s.stop_frame, s.stop_out, s.stop_diag⟩⟩

end Sys2Proof.Machine
end

section
/-! SUPPORT. An instruction under another opcode map (00_scope.md R8, decision D1). -/

namespace Sys2Proof.Machine

variable {s t : State}

/-- A change of state that commutes with every fatal fault, and with the meaning of a one-register instruction, commutes
with the instruction on every operand byte. -/
theorem withReg_commutes (f : State → State) {o : Byte} {k k' : Reg → State} (h : withReg o s k = .next t)
    (hraise : ∀ c, (f s).raise c = f (s.raise c)) (hk : ∀ a, k' a = f (k a)) : withReg o (f s) k' = .next (f t) := by
  rcases withReg_next h with ⟨a, rfl, rfl⟩ | ⟨ho, rfl⟩
  · rw [withReg_regByte, hk]
  · rw [withReg_bad ho, hraise]

/-- The same of a two-register instruction. -/
theorem withRegs_commutes (f : State → State) {o1 o2 : Byte} {k k' : Reg → Reg → State}
    (h : withRegs o1 o2 s k = .next t) (hraise : ∀ c, (f s).raise c = f (s.raise c))
    (hk : ∀ a b, k' a b = f (k a b)) : withRegs o1 o2 (f s) k' = .next (f t) := by
  rcases withRegs_next h with ⟨a, b, rfl, rfl, rfl⟩ | ⟨ho, rfl⟩ | ⟨a, rfl, ho, rfl⟩
  · rw [withRegs_regByte, hk]
  · rw [withRegs_bad_first ho, hraise]
  · rw [withRegs_bad_second ho, hraise]

/-- `s` with another opcode map in its configuration. -/
def State.withOpcodes (s : State) (m : OpcodeMap) : State := { s with config := { s.config with opcodes := m } }

@[simp] theorem State.withOpcodes_reg (m : OpcodeMap) (r : Reg) : (s.withOpcodes m).reg r = s.reg r := rfl
@[simp] theorem State.withOpcodes_isEqual (m : OpcodeMap) : (s.withOpcodes m).isEqual = s.isEqual := rfl
theorem State.withOpcodes_raise (m : OpcodeMap) (c : FaultCause) :
    (s.withOpcodes m).raise c = (s.raise c).withOpcodes m := rfl

/-- No instruction looks at the opcode map. -/
theorem exec_withOpcodes {i : Instr} (m : OpcodeMap) (h : exec i s = .next t) :
    exec i (s.withOpcodes m) = .next (t.withOpcodes m) := by
  have hraise := fun c => s.withOpcodes_raise m c
  cases i
  case hlt | ret | jmp => cases h; rfl
  case ldi | prn | push | pop | call | not =>
    exact withReg_commutes (·.withOpcodes m) h hraise fun _ => rfl
  case jeq | jne =>
    refine withReg_commutes (·.withOpcodes m) h hraise fun a => ?_
    rw [State.withOpcodes_isEqual]
    split <;> rfl
  case mod =>
    refine withRegs_commutes (·.withOpcodes m) h hraise fun a b => ?_
    rw [State.withOpcodes_reg]
    split <;> rfl
  case cmp | and | or | xor | shl | shr | add | mul =>
    exact withRegs_commutes (·.withOpcodes m) h hraise fun _ _ => rfl

end Sys2Proof.Machine
end

section
/-! O20 and O21: the configuration. -/

namespace Sys2Proof.Machine

/-- Settles O20: neither an instruction nor a fatal fault writes the configuration. -/
theorem configurationNeverChanges : Obligations.ConfigurationNeverChanges := fun _ _ => step_config

/-- Settles O21: no meaning looks at the opcode map, and each carries it along. -/
theorem meaningIgnoresOpcodeMap : Obligations.MeaningIgnoresOpcodeMap := fun _ _ _ m => exec_withOpcodes m

end Sys2Proof.Machine
end

section
/-! O25 and O35: what a step does to `OUT`, and straight-line code. -/

namespace Sys2Proof.Machine

variable {s t : State}

/-- Everything an instruction can do to `OUT`: keep it, or be PRN on a register and append its byte. -/
theorem exec_out {i : Instr} (h : exec i s = .next t) :
    t.out = s.out ∨ ∃ a, i = .prn (regByte a) ∧ t.out = s.out ++ [s.reg a] := by
  cases i
  case prn o =>
    rcases withReg_next h with ⟨a, rfl, rfl⟩ | ⟨-, rfl⟩
    · exact .inr ⟨a, rfl, rfl⟩
    · exact .inl rfl
  all_goals left
  case hlt | ret | jmp => cases h; rfl
  case ldi | push | pop | call | not => exact withReg_keeps State.out h s.raise_out fun _ => rfl
  case jeq | jne => exact withReg_keeps State.out h s.raise_out fun _ => by split <;> rfl
  case mod => exact withRegs_keeps State.out h s.raise_out fun _ _ => by split <;> rfl
  case cmp | and | or | xor | shl | shr | add | mul =>
    exact withRegs_keeps State.out h s.raise_out fun _ _ => rfl

/-- Settles O25: `exec_out` for the fetched instruction; a failed fetch only raises. -/
theorem outputGrowsByPrintAlone : Obligations.OutputGrowsByPrintAlone := by
  intro s t h
  obtain ⟨-, ⟨i, hf, hi⟩ | ⟨e, -, rfl⟩⟩ := step_next h
  · refine (exec_out hi).imp_right fun ⟨a, hprn, hout⟩ => ⟨a, ?_, hout⟩
    rw [hf, hprn]
  · exact .inl (s.raise_out _)

/-- An instruction transfers only if it is CALL, RET, JMP, JEQ on EQUAL or JNE on anything else. -/
theorem not_transfers {i : Instr} (hcall : ∀ o, i ≠ .call o) (hret : i ≠ .ret) (hjmp : ∀ v, i ≠ .jmp v)
    (hjeq : ∀ o, i = .jeq o → s.fl ≠ 0b001#3) (hjne : ∀ o, i = .jne o → s.fl = 0b001#3) : ¬ Transfers s i := by
  intro h
  cases i
  case call o => exact hcall o rfl
  case ret => exact hret rfl
  case jmp v => exact hjmp v rfl
  case jeq o => exact hjeq o rfl h
  case jne o => exact h (hjne o rfl)
  all_goals exact h

/-- Settles O35: an instruction that goes on and does not transfer advances by its length, and having been fetched it
ends at 256 at the latest. -/
theorem straightLineCodeMovesUp : Obligations.StraightLineCodeMovesUp := by
  intro s t i hr hf h ht hcall hret hjmp hjeq hjne
  rw [step_of_fetch hr hf] at h
  rcases exec_pc h with ⟨hstop, -⟩ | ⟨hpc, hlen⟩ | ⟨htransfer, -⟩
  · rw [hstop] at ht
    cases ht
  · have hmax := i.length_bounds.2
    refine ⟨?_, by omega⟩
    rw [hpc, (State.holds_of_fetch hf).advance_toNat]
  · exact absurd htransfer (not_transfers hcall hret hjmp hjeq hjne)

end Sys2Proof.Machine
end

section
/-! SUPPORT. The invariant after reset, and the host's load of an image (70_reset_and_hazards.md R135, R136,
20_memory.md R45). -/

namespace Sys2Proof.Machine

/-- The reset state of a machine with a legal opcode map meets the invariant. -/
theorem State.resetWith_inv {c : Config} (hc : c.opcodes.legal = true) : (State.resetWith c).Inv where
  memCanonical := State.resetWith_mem_wf c
  pcRange := Nat.zero_le 256
  flLegal := .inl rfl
  mapLegal := hc
  runningUnfaulted _ := rfl
  faultRecorded _ hr := nomatch hr

/-- The bytes written to ascending addresses from `a`: what the host's load does to memory. -/
def Memory.writeAll : Memory → Nat → List Byte → Memory
  | m, _, [] => m
  | m, a, v :: r => Memory.writeAll (Memory.write m a v) (a + 1) r

/-- Bytes that end at or below address 255 are all written. -/
theorem State.hostWriteAll_of_fits {s : State} {a : Nat} {bs : List Byte} (h : a + bs.length ≤ 256) :
    s.hostWriteAll a bs = some { s with mem := Memory.writeAll s.mem a bs } := by
  induction bs generalizing s a with
  | nil => rfl
  | cons v r ih =>
    rw [List.length_cons] at h
    rw [State.hostWriteAll, State.hostWrite, if_pos (by omega)]
    exact ih (by omega)

/-- Of bytes that run past address 255, one is refused. -/
theorem State.hostWriteAll_of_too_long {s : State} {a : Nat} {bs : List Byte} (ha : a ≤ 256)
    (h : 256 < a + bs.length) : s.hostWriteAll a bs = none := by
  induction bs generalizing s a with
  | nil => exact absurd h ha.not_gt
  | cons v r ih =>
    rw [List.length_cons] at h
    by_cases htop : a ≤ 255
    · rw [State.hostWriteAll, State.hostWrite, if_pos htop]
      exact ih (by omega) (by omega)
    · rw [State.hostWriteAll, State.hostWrite, if_neg htop]

/-- An address from `a` up reads as the byte written there, an address past the bytes or below `a` as before. -/
theorem Memory.read_writeAll (m : Memory) (a b : Nat) (bs : List Byte) :
    Memory.read (Memory.writeAll m a bs) b = if a ≤ b then bs.getD (b - a) (Memory.read m b) else Memory.read m b := by
  induction bs generalizing m a with
  | nil => simp [Memory.writeAll]
  | cons v r ih =>
    rw [Memory.writeAll, ih, Memory.read_write]
    rcases lt_trichotomy a b with hlt | rfl | hgt
    · have hsucc : b - a = b - (a + 1) + 1 := by omega
      rw [if_pos (by omega), if_neg hlt.ne, if_pos hlt.le, hsucc, List.getD_cons_succ]
    · simp
    · rw [if_neg (by omega), if_neg hgt.ne', if_neg (by omega)]

/-- Bytes written at 0 to 255 keep the canonical form. -/
theorem Memory.writeAll_wf {m : Memory} (hm : Memory.wf m) {a : Nat} {bs : List Byte} (h : a + bs.length ≤ 256) :
    Memory.wf (Memory.writeAll m a bs) := by
  induction bs generalizing m a with
  | nil => exact hm
  | cons v r ih =>
    rw [List.length_cons] at h
    exact ih (Memory.write_wf hm (by omega) v) (by omega)

/-- An image written from address 0 on the memory of reset reads as the image padded with zeros. -/
theorem Memory.read_writeAll_reset (image : List Byte) (b : Nat) :
    Memory.read (Memory.writeAll [] 0 image) b = image.getD b 0 := by
  rw [Memory.read_writeAll, if_pos (Nat.zero_le b)]
  rfl

end Sys2Proof.Machine
end

section
/-! O2, O3 and O5: reset and load. -/

namespace Sys2Proof.Machine

/-- Settles O2: the host's reset is `State.resetWith` of the machine's own configuration. -/
theorem resetFromAnyState : Obligations.ResetFromAnyState := by
  intro s
  refine ⟨State.resetWith_reg _, rfl, rfl, rfl, rfl, fun a ha => ?_, rfl, rfl, rfl⟩
  rw [State.hostReset, State.resetWith_memRead, if_pos ha]

/-- Settles O3: the default map is legal too. -/
theorem resetMeetsInvariant : Obligations.ResetMeetsInvariant :=
  ⟨State.resetWith_inv defaultOpcodes_legal, fun _ => State.resetWith_inv⟩

/-- Settles O5: the load writes memory alone, cell by cell, and fails at the first address above 255. -/
theorem imageLoadedAfterReset : Obligations.ImageLoadedAfterReset := by
  refine ⟨fun c image h => ?_, fun c image h => State.hostWriteAll_of_too_long (Nat.zero_le 256) (by omega)⟩
  refine ⟨_, State.hostWriteAll_of_fits (by omega), fun a ha => ?_, State.resetWith_reg c, rfl, rfl, rfl, rfl, rfl, rfl,
    rfl, Memory.writeAll_wf (State.resetWith_mem_wf c) (by omega)⟩
  rw [State.memRead, if_pos ha]
  exact congrArg some (Memory.read_writeAll_reset image a)

end Sys2Proof.Machine
end

section
/-! O6: words of the default opcode table. -/

namespace Sys2Proof.Machine

/-- A word that is the default encoding of `i` decodes to `i`. -/
theorem decode_of_eq_encode {bytes : List Byte} {i : Instr} (h : bytes = encode defaultOpcodes i) :
    decode defaultOpcodes bytes = .ok i := by
  have hround := decodeEncodeRoundTrip defaultOpcodes i [] defaultOpcodes_legal
  rwa [List.append_nil, ← h] at hround

/-- Settles O6: each word is the default encoding of its instruction. -/
theorem defaultWordsDecode : Obligations.DefaultWordsDecode :=
  ⟨decode_of_eq_encode rfl, decode_of_eq_encode rfl, decode_of_eq_encode rfl, decode_of_eq_encode rfl,
    decode_of_eq_encode rfl, decode_of_eq_encode rfl, decode_of_eq_encode rfl, decode_of_eq_encode rfl⟩

end Sys2Proof.Machine
end

section
/-! SUPPORT. The entries of a memory in canonical form (20_memory.md R36). -/

namespace Sys2Proof.Machine

/-- An address without an entry reads as unlisted. -/
theorem Memory.read_of_no_entry {m : Memory} {a : Nat} (h : ∀ c ∈ m, c.1 ≠ a) :
    Memory.read m a = Memory.unlisted := by
  induction m with
  | nil => rfl
  | cons c r ih =>
    rw [Memory.read, if_neg (h c List.mem_cons_self)]
    exact ih fun d hd => h d (List.mem_cons_of_mem c hd)

/-- Where no two entries share an address, an entry is what its address reads as. -/
theorem Memory.read_of_entry {m : Memory} (hm : m.Pairwise fun c d => c.1 < d.1) {c : Host.Cell} (hc : c ∈ m) :
    Memory.read m c.1 = c.2 := by
  induction m with
  | nil => cases hc
  | cons d r ih =>
    obtain ⟨hd, hr⟩ := List.pairwise_cons.mp hm
    rcases List.mem_cons.mp hc with rfl | hc
    · rw [Memory.read, if_pos rfl]
    · rw [Memory.read, if_neg (hd c hc).ne]
      exact ih hr hc

/-- The entries of a memory in canonical form are the addresses that do not read as unlisted, with what they read as. -/
theorem Memory.mem_iff_read {m : Memory} (hm : Memory.wf m) {c : Host.Cell} :
    c ∈ m ↔ Memory.read m c.1 = c.2 ∧ c.2 ≠ Memory.unlisted := by
  obtain ⟨hrising, hcells⟩ := hm
  refine ⟨fun hc => ⟨Memory.read_of_entry hrising hc, (hcells c hc).2⟩, fun ⟨hread, hlisted⟩ => ?_⟩
  by_contra hc
  have hentry : ∃ d ∈ m, d.1 = c.1 := by
    by_contra hnone
    rw [← hread] at hlisted
    exact hlisted (Memory.read_of_no_entry fun d hd he => hnone ⟨d, hd, he⟩)
  obtain ⟨d, hd, haddress⟩ := hentry
  have hvalue : d.2 = c.2 := by rw [← Memory.read_of_entry hrising hd, haddress, hread]
  exact hc (Prod.ext haddress hvalue ▸ hd)

end Sys2Proof.Machine
end

section
/-! O54: the canonical form. -/

namespace Sys2Proof.Machine

/-- Of two canonical memories that read alike, each entry of the one is an entry of the other. -/
theorem Memory.mem_of_reads_eq {m m' : Memory} (hm : Memory.wf m) (hm' : Memory.wf m')
    (h : ∀ a, a ≤ 255 → Memory.read m a = Memory.read m' a) {c : Host.Cell} (hc : c ∈ m) : c ∈ m' := by
  have haddress : c.1 ≤ 255 := Nat.le_of_lt_succ (hm.2 c hc).1
  rw [Memory.mem_iff_read hm, h c.1 haddress] at hc
  exact (Memory.mem_iff_read hm').mpr hc

/-- Settles O54: the two lists have the same entries, and both are strictly rising. -/
theorem canonicalMemoriesAreEqualWhenReadsAre : Obligations.CanonicalMemoriesAreEqualWhenReadsAre := by
  intro m m' hm hm' h
  have hentries : ∀ c, c ∈ m ↔ c ∈ m' := fun c =>
    ⟨Memory.mem_of_reads_eq hm hm' h, Memory.mem_of_reads_eq hm' hm fun a ha => (h a ha).symm⟩
  have hperm : m.Perm m' := (List.perm_ext_iff_of_nodup
    (hm.1.imp fun hlt he => hlt.ne (congrArg Prod.fst he))
    (hm'.1.imp fun hlt he => hlt.ne (congrArg Prod.fst he))).mpr hentries
  exact hperm.eq_of_pairwise (fun c d _ _ hcd hdc => absurd hcd hdc.asymm) hm.1 hm'.1

end Sys2Proof.Machine
end

section
/-! SUPPORT. PUSH, POP, CALL and RET on a legal register operand, and the frames of their writes (42_stack.md,
43_control_transfer.md R84 to R86). -/

namespace Sys2Proof.Machine

variable {s t : State} {regs : List Reg} {stored : List Byte}

/-- Setting `pc` afterwards, as an advance and a jump do, changes no frame. -/
theorem Frame.setPc (h : Frame regs stored s t) (p : Addr) : Frame regs stored s (t.setPc p) :=
  ⟨h.registers, h.memory, h.config⟩

/-- Writing a register afterwards adds it to the frame. -/
theorem Frame.setReg (h : Frame regs stored s t) (r : Reg) (v : Byte) : Frame (regs ++ [r]) stored s (t.setReg r v) where
  registers q hq := by
    rw [List.mem_append, not_or, List.mem_singleton] at hq
    rw [State.setReg_reg, if_neg (Ne.symm hq.2)]
    exact h.registers q hq.1
  memory := h.memory
  config := h.config

theorem Frame.refl (s : State) : Frame [] [] s s := ⟨fun _ _ => rfl, fun _ _ => rfl, rfl⟩

/-- A push writes its pointer register and the cell at the pointer's new value. -/
theorem State.pushThrough_frame (s : State) (r : Reg) (v : Byte) :
    Frame [r] [s.reg r - 1#8] s (s.pushThrough r v) where
  registers q hq := by rw [State.pushThrough_reg, if_neg fun h => hq (List.mem_singleton.mpr h.symm)]
  memory a ha := by rw [State.pushThrough_memRead, if_neg (ha _ (List.mem_singleton.mpr rfl)).symm]
  config := s.pushThrough_config r v

/-- What POP does to the registers: the byte at the stack pointer goes to register `a`, then the pointer moves up. -/
def State.popInto (s : State) (a : Reg) : State :=
  let s' := s.setReg a (s.load (s.reg sp))
  s'.setReg sp (s'.reg sp + 1#8)

theorem State.popInto_reg (s : State) {a : Reg} (ha : a ≠ sp) : (s.popInto a).reg a = s.load (s.reg sp) := by
  rw [State.popInto, State.setReg_reg, if_neg ha.symm, State.setReg_reg, if_pos rfl]

theorem State.popInto_sp (s : State) (a : Reg) :
    (s.popInto a).reg sp = if a = sp then s.load (s.reg sp) + 1#8 else s.reg sp + 1#8 := by
  rw [State.popInto, State.setReg_reg, if_pos rfl, State.setReg_reg]
  split <;> rfl

/-- POP writes register `a` and the stack pointer, and no memory. -/
theorem State.popInto_frame (s : State) (a : Reg) : Frame [a, sp] [] s (s.popInto a) :=
  ((Frame.refl s).setReg a _).setReg sp _

/-- CALL's return address is `(pc + 2) mod 256`. -/
theorem State.returnByte_toNat (s : State) : s.returnByte.toNat = (s.pc.toNat + 2) % 256 := trunc8_toNat _

variable (s) (a : Reg)

@[simp] theorem exec_pop_regByte : exec (.pop (regByte a)) s = .next ((s.popInto a).advance 2) :=
  withReg_regByte a s _

@[simp] theorem exec_call_regByte : exec (.call (regByte a)) s = .next
    ((s.pushThrough s.callSp s.returnByte).jump ((s.pushThrough s.callSp s.returnByte).reg a)) :=
  withReg_regByte a s _

theorem exec_ret : exec .ret s = .next ((s.jump (s.load (s.reg sp))).setReg sp (s.reg sp + 1#8)) := rfl

end Sys2Proof.Machine
end

section
/-! O24, O26, O27, O29 and O30: PRN, PUSH, POP, CALL and RET. -/

namespace Sys2Proof.Machine

/-- Settles O24: PRN is `State.emit` and an advance. -/
theorem printEffect : Obligations.PrintEffect := by
  refine ⟨⟨rfl, fun _ _ => rfl⟩, fun a s => ?_, fun o1 ho => ?_, operandFetchFaults (.prn 0)⟩
  · exact ⟨_, exec_prn_regByte s a, rfl, rfl, rfl, ⟨fun _ _ => rfl, fun _ _ => rfl, rfl⟩, rfl, rfl, rfl⟩
  · exact takesRegisterError_of_withReg (fun _ => rfl) ho

/-- Settles O26: PUSH is a push of the old `x[a]` through register 7 and an advance. -/
theorem pushEffect : Obligations.PushEffect := by
  refine ⟨⟨rfl, fun _ _ => rfl⟩, fun a s => ?_, fun o1 ho => ?_, operandFetchFaults (.push 0)⟩
  · refine ⟨_, exec_push_regByte s a, ?_, ?_, rfl, (s.pushThrough_frame sp _).setPc _, ⟨rfl, rfl, rfl⟩, rfl, rfl⟩
    · rw [State.advance_reg, State.pushThrough_reg, sp, if_pos rfl]
    · rw [State.advance_load, State.pushThrough_load, sp, if_pos rfl]
  · exact takesRegisterError_of_withReg (fun _ => rfl) ho

/-- Settles O27: POP is `State.popInto` and an advance. -/
theorem popEffect : Obligations.PopEffect := by
  refine ⟨⟨rfl, fun _ _ => rfl⟩, fun a s => ?_, fun o1 ho => ?_, operandFetchFaults (.pop 0)⟩
  · exact ⟨_, exec_pop_regByte s a, s.popInto_reg, s.popInto_sp a, rfl, (s.popInto_frame a).setPc _,
      ⟨rfl, rfl, rfl⟩, rfl, rfl⟩
  · exact takesRegisterError_of_withReg (fun _ => rfl) ho

/-- `CALL_SP_INDEX` names register 7 or 6. -/
theorem State.callSp_eq (s : State) : s.callSp = match s.config.callSp with | .seven => 7 | .six => 6 := by
  rw [State.callSp]
  cases s.config.callSp <;> rfl

/-- Settles O29: CALL is a push of the return address through its pointer and a jump to the target register as it is
after the push. -/
theorem callEffect : Obligations.CallEffect := by
  refine ⟨⟨rfl, fun _ _ => rfl⟩, State.callSp_eq, fun a s => ?_, fun o1 ho => ?_, operandFetchFaults (.call 0)⟩
  · refine ⟨_, exec_call_regByte s a, ?_, ?_, ?_, (s.pushThrough_frame _ _).setPc _, ⟨rfl, rfl, rfl⟩, rfl, rfl⟩
    · rw [State.jump_reg, State.pushThrough_reg, if_pos rfl]
    · rw [State.jump_load, State.pushThrough_load, if_pos rfl, State.returnByte_toNat]
    · rw [State.jump_pc_toNat, State.pushThrough_reg]
      simp only [eq_comm]
  · exact takesRegisterError_of_withReg (fun _ => rfl) ho

/-- Settles O30: RET is a jump to the byte at register 7 and a write of that register; it checks no operand. -/
theorem returnEffect : Obligations.ReturnEffect := by
  refine ⟨⟨rfl, fun _ => rfl⟩, fun s => ?_, fun s => step_at_top⟩
  refine ⟨_, exec_ret s, State.jump_pc_toNat s _, ?_, ((Frame.refl s).setPc _).setReg sp _, ⟨rfl, rfl, rfl⟩, rfl, rfl⟩
  rw [sp, State.setReg_reg, if_pos rfl]

end Sys2Proof.Machine
end

section
/-! O28 and O31: PUSH then POP, and CALL then RET. -/

namespace Sys2Proof.Machine

variable {s : State}

/-- An instruction of two bytes stands at `pc` when its opcode and its operand byte do. -/
theorem State.holds_of_two_bytes {i : Instr} {o : Byte} (hi : i.operandBytes = [o])
    (h0 : s.codeByte 0 = some (s.config.opcodes.opcodeOf i.mnemonic)) (h1 : s.codeByte 1 = some o) : s.Holds i := by
  intro k hk
  rw [Instr.length_eq, hi, List.length_singleton] at hk
  rw [encode, hi]
  interval_cases k
  · exact h0
  · exact h1

/-- A running machine steps through an instruction that stands at `pc`. -/
theorem State.Holds.step {i : Instr} (h : s.Holds i) (hr : s.run = true) (hm : s.config.opcodes.legal = true) :
    step s = exec i s :=
  step_of_fetch hr (h.fetch hm)

/-- The state after PUSH of register `a`. -/
def State.afterPush (s : State) (a : Reg) : State := (s.pushThrough sp (s.reg a)).advance 2

theorem State.afterPush_sp (s : State) (a : Reg) : (s.afterPush a).reg sp = s.reg sp - 1#8 := by
  rw [State.afterPush, State.advance_reg, State.pushThrough_reg, if_pos rfl]

/-- The pointer addresses the byte pushed. -/
theorem State.afterPush_load (s : State) (a : Reg) : (s.afterPush a).load ((s.afterPush a).reg sp) = s.reg a := by
  rw [State.afterPush_sp, State.afterPush, State.advance_load, State.pushThrough_load, if_pos rfl]

/-- After a PUSH that does not wrap `pc`, the code two bytes on is what it was, where the store did not hit it. -/
theorem State.afterPush_codeByte {a : Reg} {k : Nat} (hpc : (s.afterPush a).pc.toNat = s.pc.toNat + 2)
    (hmiss : (s.reg sp - 1#8).toNat ≠ s.pc.toNat + 2 + k) : (s.afterPush a).codeByte k = s.codeByte (2 + k) := by
  rw [State.codeByte, hpc, State.afterPush, State.advance_memRead, State.pushThrough_memRead, if_neg hmiss,
    State.codeByte, Nat.add_assoc]

/-- Settles O28: the PUSH leaves the POP in place, and the POP reads the cell that the PUSH wrote. -/
theorem pushThenPopRoundTrips : Obligations.PushThenPopRoundTrips := by
  intro s a b hr hm _ (hb : b ≠ sp) _ h0 h1 h2 h3 hmiss0 hmiss1
  have hpush : s.Holds (.push (regByte a)) := State.holds_of_two_bytes rfl h0 h1
  have hpush_pc : (s.afterPush a).pc.toNat = s.pc.toNat + 2 := hpush.advance_toNat
  have hpop : (s.afterPush a).Holds (.pop (regByte b)) := by
    refine State.holds_of_two_bytes rfl ?_ ?_
    · exact (State.afterPush_codeByte (k := 0) hpush_pc hmiss0).trans h2
    · exact (State.afterPush_codeByte (k := 1) hpush_pc hmiss1).trans h3
  refine ⟨s.afterPush a, _, (hpush.step hr hm).trans (exec_push_regByte s a),
    (hpop.step hr hm).trans (exec_pop_regByte _ b), ?_, ?_, ?_⟩
  · rw [State.advance_reg, State.popInto_reg _ hb, State.afterPush_load]
  · have hpointer : ((s.afterPush a).popInto b).reg sp = s.reg sp := by
      rw [State.popInto_sp, if_neg hb, State.afterPush_sp, BitVec.sub_add_cancel]
    exact hpointer
  · exact hpop.advance_toNat.trans (congrArg (· + 2) hpush_pc)

/-- Settles O31: RET reads the return address from the cell that CALL wrote, at the pointer that CALL left. -/
theorem callThenReturnRoundTrips : Obligations.CallThenReturnRoundTrips := by
  intro s t u a hpc h hpointer hcell
  rw [exec_call_regByte] at h
  cases h
  rw [State.jump_reg, State.pushThrough_reg, if_pos rfl] at hpointer
  rw [hpointer, State.jump_load, State.pushThrough_load, if_pos rfl] at hcell
  refine ⟨_, exec_ret u, ?_, fun hseven => ?_⟩
  · rw [State.setReg_pc, State.jump_pc_toNat, sp, hpointer, hcell, State.returnByte_toNat]
    omega
  · have hsp : s.callSp = 7 := by rw [State.callSp, hseven]; rfl
    rw [sp, State.setReg_reg, if_pos rfl, hpointer, hsp, BitVec.sub_add_cancel]

end Sys2Proof.Machine
end

section
/-! SUPPORT. The shifts, the remainder, and the operations on one register twice (44_alu.md R101 to R103, R105). -/

namespace Sys2Proof.Machine

/-- A shift amount below 8 multiplies by the power of 2. -/
theorem aluShl_toNat {u n : Byte} (hn : n.toNat < 8) : (aluShl u n).toNat = u.toNat * 2 ^ n.toNat % 256 := by
  rw [aluShl, if_neg hn.not_ge, trunc8_toNat]

/-- SHR is the logical shift of the byte by the whole amount. -/
theorem aluShr_eq (u n : Byte) : aluShr u n = u >>> n.toNat := by
  apply BitVec.eq_of_toNat_eq
  rw [BitVec.toNat_ushiftRight, Nat.shiftRight_eq_div_pow, aluShr]
  have hu := u.isLt
  split
  · next hn =>
    have hpow : 2 ^ 8 ≤ 2 ^ n.toNat := Nat.pow_le_pow_right (by decide) hn
    exact (Nat.div_eq_of_lt (hu.trans_le hpow)).symm
  · rw [trunc8_toNat, Nat.mod_eq_of_lt ((Nat.div_le_self _ _).trans_lt hu)]

theorem aluShr_toNat (u n : Byte) : (aluShr u n).toNat = u.toNat / 2 ^ n.toNat := by
  rw [aluShr_eq, BitVec.toNat_ushiftRight, Nat.shiftRight_eq_div_pow]

theorem aluMod_toNat (u v : Byte) : (aluMod u v).toNat = u.toNat % v.toNat := by
  rw [aluMod, trunc8_toNat, Nat.mod_eq_of_lt ((Nat.mod_le _ _).trans_lt u.isLt)]

variable {s : State}

/-- MOD on legal registers with a divisor that is not 0 writes the remainder and moves `pc`. -/
theorem exec_mod_of_ne_zero (a : Reg) {b : Reg} (hb : s.reg b ≠ 0#8) :
    exec (.mod (regByte a) (regByte b)) s = .next ((s.setReg a (aluMod (s.reg a) (s.reg b))).advance 3) := by
  rw [exec, execMod, withRegs_regByte, if_neg hb]

/-- A two-operand ALU operation on one register twice reads its old value for both operands. -/
theorem binary_same (f : Byte → Byte → Byte) (a : Reg) (s : State) :
    ∃ t, binary f (regByte a) (regByte a) s = .next t ∧ t.reg a = f (s.reg a) (s.reg a) :=
  ⟨_, binary_regByte f a a s, s.setReg_advance_reg a _ 3⟩

/-- MOD of a register by itself leaves 0: the remainder, or the 0 that was the divisor. -/
theorem exec_mod_same (a : Reg) (s : State) :
    ∃ t, exec (.mod (regByte a) (regByte a)) s = .next t ∧ t.reg a = 0#8 := by
  by_cases h : s.reg a = 0#8
  · exact ⟨_, exec_mod_of_zero a h, h⟩
  · refine ⟨_, exec_mod_of_ne_zero a h, ?_⟩
    rw [State.setReg_advance_reg]
    exact BitVec.eq_of_toNat_eq ((aluMod_toNat _ _).trans (Nat.mod_self _))

theorem compareFlags_of_eq {u v : Byte} (h : u = v) : compareFlags u v = 0b001#3 := if_pos h

theorem compareFlags_of_gt {u v : Byte} (h : v.toNat < u.toNat) : compareFlags u v = 0b010#3 := by
  rw [compareFlags, if_neg fun he => h.ne' (congrArg BitVec.toNat he), if_pos h]
  rfl

theorem compareFlags_of_lt {u v : Byte} (h : u.toNat < v.toNat) : compareFlags u v = 0b100#3 := by
  rw [compareFlags, if_neg fun he => h.ne (congrArg BitVec.toNat he), if_neg h.not_gt]
  rfl

end Sys2Proof.Machine
end

section
/-! O36, O43, O44, O45 and O47: CMP, SHL, SHR, MOD, and both operands the same register. -/

namespace Sys2Proof.Machine

/-- Settles O36: CMP writes `compareFlags` to `FL`, which has one value for each order of its operands. -/
theorem compareEffect : Obligations.CompareEffect := by
  refine ⟨⟨rfl, fun _ _ _ => rfl⟩, fun a b s => ?_, fun o1 o2 => takesRegisterError_of_withRegs_first fun _ => rfl,
    fun a o2 => takesRegisterError_of_withRegs_second fun _ => rfl, operandFetchFaults (.cmp 0 0)⟩
  exact ⟨_, exec_cmp_regByte s a b, compareFlags_of_eq, compareFlags_of_gt, compareFlags_of_lt, rfl,
    ⟨fun _ _ => rfl, fun _ _ => rfl, rfl⟩, ⟨rfl, rfl⟩, rfl, rfl⟩

/-- Settles O43: SHL is `binary` of the truncated product with the power of 2. -/
theorem shiftLeftEffect : Obligations.ShiftLeftEffect :=
  ⟨rfl, aluEffect_of_binary (f := aluShl) rfl (fun _ _ _ => rfl) fun _ _ => ⟨fun hn => if_pos hn, aluShl_toNat⟩⟩

/-- Settles O44: SHR is `binary` of the byte's logical shift. -/
theorem shiftRightEffect : Obligations.ShiftRightEffect := by
  refine ⟨rfl, aluEffect_of_binary (f := aluShr) rfl (fun _ _ _ => rfl) fun u n => ?_⟩
  refine ⟨fun hn => if_pos hn, fun _ => aluShr_toNat u n, fun i _ => ?_⟩
  rw [aluShr_eq, BitVec.getLsbD_ushiftRight, Nat.add_comm]

/-- Settles O45: a divisor that is not 0 gives the remainder of the division, divisor 0 the report. -/
theorem modEffect : Obligations.ModEffect := by
  refine ⟨⟨rfl, fun _ _ _ => rfl⟩, fun a b s => ?_, fun o1 o2 => takesRegisterError_of_withRegs_first fun _ => rfl,
    fun a o2 => takesRegisterError_of_withRegs_second fun _ => rfl, operandFetchFaults (.mod 0 0)⟩
  by_cases hb : s.reg b = 0#8
  · exact ⟨_, exec_mod_of_zero a hb, absurd hb, fun _ => ⟨s.report_advance_frame _ 3, rfl⟩, rfl, rfl, rfl, rfl, rfl⟩
  · refine ⟨_, exec_mod_of_ne_zero a hb, fun _ => ?_, fun h => absurd h hb, rfl, rfl,
      s.setReg_advance_keepsLatches a _ 3⟩
    have hpos : 0 < (s.reg b).toNat := Nat.pos_of_ne_zero fun h => hb (BitVec.eq_of_toNat_eq h)
    rw [State.setReg_advance_reg, aluMod_toNat]
    exact ⟨⟨_, (Nat.div_add_mod' _ _).symm⟩, Nat.mod_lt _ hpos, s.setReg_advance_frame a _ 3, rfl⟩

/-- Settles O47: each operation reads the old value twice. -/
theorem sameRegisterTwice : Obligations.SameRegisterTwice := by
  intro a s
  refine ⟨?_, ?_, ?_, ?_, ?_, exec_mod_same a s, ?_⟩
  · obtain ⟨t, h, ht⟩ := binary_same aluAdd a s
    exact ⟨t, h, by rw [ht, aluAdd, trunc8_toNat, two_mul]⟩
  · obtain ⟨t, h, ht⟩ := binary_same aluMul a s
    exact ⟨t, h, by rw [ht, aluMul, trunc8_toNat, sq]⟩
  · obtain ⟨t, h, ht⟩ := binary_same aluAnd a s
    exact ⟨t, h, by rw [ht, aluAnd, BitVec.and_self]⟩
  · obtain ⟨t, h, ht⟩ := binary_same aluOr a s
    exact ⟨t, h, by rw [ht, aluOr, BitVec.or_self]⟩
  · obtain ⟨t, h, ht⟩ := binary_same aluXor a s
    exact ⟨t, h, by rw [ht, aluXor, BitVec.xor_self]⟩
  · exact ⟨_, exec_cmp_regByte s a a, compareFlags_of_eq rfl⟩

end Sys2Proof.Machine
end
